-- ==== Sys2Proof/Word.lean ====
section
/-! DEFINITION. The plain data types the manual's notation names: bytes of the character buffer, the 64-bit host
registers, the numbers of the value registers (00_scope.md R10, R11; 30_encoding.md R83). -/

namespace Sys2Proof

/-- One byte of CBUF (10_state.md R36). -/
abbrev Byte := BitVec 8

/-- The contents of a 64-bit host register (10_state.md R27 to R35). -/
abbrev Word64 := BitVec 64

/-- The number of a value register, V0 to V15: a zero-extended 4-bit field (10_state.md R20, 30_encoding.md R83). -/
abbrev VReg := Fin 16

end Sys2Proof
end

