-- ==== Sys2Proof/Config.lean ====
section
/-! DEFINITION. What an implementation fixes (00_scope.md R8, R9; 20_memory.md R50; 93_implementation_defined.md U12, U15)
and the free values of the model (93_implementation_defined.md U9). -/

namespace Sys2Proof

/-- The named parameters the spec says a model takes as arguments. A machine holds them in its state and never changes
them, so that a statement about every state is about every parameter (log entry 1). -/
structure Params where
  /-- MAX_BITS: the largest bit length a value register can hold (00_scope.md R8). -/
  maxBits : Nat
  /-- CBUF_SIZE: the size in bytes of the character buffer (00_scope.md R9). -/
  cbufSize : Nat
  /-- BIE_BASE: where the platform maps the register window (20_memory.md R50). -/
  bieBase : Nat
  deriving DecidableEq, Repr

/-- The reference configuration, MAX_BITS = 4096 and CBUF_SIZE = 4096 (00_scope.md R8, R9). The spec gives BIE_BASE no
reference value; 0 is this model's (DESIGN CHOICE, log entry 1). -/
def Params.reference : Params := { maxBits := 4096, cbufSize := 4096, bieBase := 0 }

/-- The free value number n: what a host read of RESULT, CLEN or CBUF returns while BUSY = 1, "drawn independently per
read" (93_implementation_defined.md U9, 70_reset_and_hazards.md R242). It has no body: nothing can be proved of it
(DESIGN CHOICE, log entry 4). -/
opaque Config.freeData : Nat → BitVec 64

end Sys2Proof
end

