-- ==== Sys2Proof/Syntax.lean ====
section
/-! DEFINITION. The 25 commands of 30_encoding.md R81, one constructor per row of the opcode table, with the fields its
format uses (R82). Numeric operands are ARG and the string operand is CBUF[0 .. CLEN-1] (R83): they are state, not fields. -/

namespace Sys2Proof

/-- A command of the BIE command set, revision 1 (00_scope.md R2, 30_encoding.md R81). -/
inductive Instr where
  | newcap (rd : VReg) (f : Bool)      -- 0x01, RDF
  | ldu (rd : VReg)                    -- 0x02, RD
  | ldstr (rd : VReg)                  -- 0x03, RD
  | copy (rd rs1 : VReg)               -- 0x04, R2
  | expand (rd : VReg) (f : Bool)      -- 0x10, RDF
  | trim (rd : VReg)                   -- 0x11, RD
  | getb (rs1 : VReg)                  -- 0x12, S1
  | setb (rd : VReg) (f : Bool)        -- 0x13, RDF
  | setall (rd : VReg) (f : Bool)      -- 0x14, RDF
  | size (rs1 : VReg)                  -- 0x15, S1
  | cmp (rs1 rs2 : VReg)               -- 0x20, S2
  | cmpu (rs1 : VReg)                  -- 0x21, S1
  | and (rd rs1 rs2 : VReg)            -- 0x30, R3
  | or (rd rs1 rs2 : VReg)             -- 0x31, R3
  | xor (rd rs1 rs2 : VReg)            -- 0x32, R3
  | not (rd rs1 : VReg)                -- 0x33, R2
  | shl (rd rs1 : VReg)                -- 0x40, R2
  | shr (rd rs1 : VReg)                -- 0x41, R2
  | add (rd rs1 rs2 : VReg)            -- 0x50, R3
  | sub (rd rs1 rs2 : VReg)            -- 0x51, R3
  | mul (rd rs1 rs2 : VReg)            -- 0x52, R3
  | div (rd rs1 rs2 : VReg)            -- 0x53, R3
  | mod (rd rs1 rs2 : VReg)            -- 0x54, R3
  | tostr (rs1 : VReg)                 -- 0x60, S1
  | tobits (rs1 : VReg)                -- 0x61, S1
  deriving DecidableEq, Repr

/-- The six formats: which fields a command uses (30_encoding.md R82). -/
inductive Format where
  | r3 | r2 | rdf | rd | s2 | s1
  deriving DecidableEq, Repr

/-- The mnemonic of a command, as opcode_table.json spells it. -/
def Instr.mnemonic : Instr → String
  | .newcap _ _ => "NEWCAP"
  | .ldu _ => "LDU"
  | .ldstr _ => "LDSTR"
  | .copy _ _ => "COPY"
  | .expand _ _ => "EXPAND"
  | .trim _ => "TRIM"
  | .getb _ => "GETB"
  | .setb _ _ => "SETB"
  | .setall _ _ => "SETALL"
  | .size _ => "SIZE"
  | .cmp _ _ => "CMP"
  | .cmpu _ => "CMPU"
  | .and _ _ _ => "AND"
  | .or _ _ _ => "OR"
  | .xor _ _ _ => "XOR"
  | .not _ _ => "NOT"
  | .shl _ _ => "SHL"
  | .shr _ _ => "SHR"
  | .add _ _ _ => "ADD"
  | .sub _ _ _ => "SUB"
  | .mul _ _ _ => "MUL"
  | .div _ _ _ => "DIV"
  | .mod _ _ _ => "MOD"
  | .tostr _ => "TOSTR"
  | .tobits _ => "TOBITS"

end Sys2Proof
end

