-- ==== Sys2Proof/WellFormed.lean ====
section
/-! DEFINITION. Which command values and which parameters are well formed, transcribed from the spec's tables and not
from the decoder. A term of Instr cannot be ill formed: its register numbers are of type Fin 16 and its F is a Bool. -/

namespace Sys2Proof

/-- The legal values of the parameters (00_scope.md R8, R9; 20_memory.md R50). -/
abbrev Params.legal (p : Params) : Prop :=
  64 ≤ p.maxBits ∧ p.maxBits ≤ 2 ^ 64 - 1 ∧ p.maxBits ≤ p.cbufSize ∧ p.cbufSize % 8 = 0 ∧ p.bieBase % 0x1000 = 0

/-- The format of each opcode of 30_encoding.md R81; every other opcode is reserved (R85). -/
def formatOf (op : Nat) : Option Format :=
  if op ∈ [0x01, 0x10, 0x13, 0x14] then some .rdf
  else if op ∈ [0x02, 0x03, 0x11] then some .rd
  else if op ∈ [0x04, 0x33, 0x40, 0x41] then some .r2
  else if op ∈ [0x12, 0x15, 0x21, 0x60, 0x61] then some .s1
  else if op ∈ [0x20] then some .s2
  else if op ∈ [0x30, 0x31, 0x32, 0x50, 0x51, 0x52, 0x53, 0x54] then some .r3
  else none

/-- The "must be zero" column of 30_encoding.md R82, on the fields' numbers. -/
def Format.mustBeZero (fm : Format) (rd rs1 rs2 f : Nat) : Bool :=
  match fm with
  | .r3 => f == 0
  | .r2 => rs2 == 0 && f == 0
  | .rdf => rs1 == 0 && rs2 == 0
  | .rd => rs1 == 0 && rs2 == 0 && f == 0
  | .s2 => rd == 0 && f == 0
  | .s1 => rd == 0 && rs2 == 0 && f == 0

/-- A CMD value is legal when none of the four conditions of 30_encoding.md R84 holds. -/
def legalCommand (c : Word64) : Bool :=
  let n := c.toNat
  n / 2 ^ 32 == 0 && n / 2 ^ 21 % 2 ^ 11 == 0 &&
    match formatOf (n % 2 ^ 8) with
    | none => false
    | some fm => fm.mustBeZero (n / 2 ^ 8 % 2 ^ 4) (n / 2 ^ 12 % 2 ^ 4) (n / 2 ^ 16 % 2 ^ 4) (n / 2 ^ 20 % 2)

/-- A row of opcode_table.json: the mnemonic, and the mask and match values over bits [63:0] of CMD. -/
structure TableRow where
  mnemonic : String
  pattern : Word64
  mask : Word64
  deriving DecidableEq, Repr

/-- opcode_table.json, row by row in its order. -/
def opcodeTable : List TableRow :=
  [ ⟨"NEWCAP", 0x01#64, 0xFFFFFFFFFFEFF0FF#64⟩,
    ⟨"LDU", 0x02#64, 0xFFFFFFFFFFFFF0FF#64⟩,
    ⟨"LDSTR", 0x03#64, 0xFFFFFFFFFFFFF0FF#64⟩,
    ⟨"COPY", 0x04#64, 0xFFFFFFFFFFFF00FF#64⟩,
    ⟨"EXPAND", 0x10#64, 0xFFFFFFFFFFEFF0FF#64⟩,
    ⟨"TRIM", 0x11#64, 0xFFFFFFFFFFFFF0FF#64⟩,
    ⟨"GETB", 0x12#64, 0xFFFFFFFFFFFF0FFF#64⟩,
    ⟨"SETB", 0x13#64, 0xFFFFFFFFFFEFF0FF#64⟩,
    ⟨"SETALL", 0x14#64, 0xFFFFFFFFFFEFF0FF#64⟩,
    ⟨"SIZE", 0x15#64, 0xFFFFFFFFFFFF0FFF#64⟩,
    ⟨"CMP", 0x20#64, 0xFFFFFFFFFFF00FFF#64⟩,
    ⟨"CMPU", 0x21#64, 0xFFFFFFFFFFFF0FFF#64⟩ ] ++
  [ ⟨"AND", 0x30#64, 0xFFFFFFFFFFF000FF#64⟩,
    ⟨"OR", 0x31#64, 0xFFFFFFFFFFF000FF#64⟩,
    ⟨"XOR", 0x32#64, 0xFFFFFFFFFFF000FF#64⟩,
    ⟨"NOT", 0x33#64, 0xFFFFFFFFFFFF00FF#64⟩,
    ⟨"SHL", 0x40#64, 0xFFFFFFFFFFFF00FF#64⟩,
    ⟨"SHR", 0x41#64, 0xFFFFFFFFFFFF00FF#64⟩,
    ⟨"ADD", 0x50#64, 0xFFFFFFFFFFF000FF#64⟩,
    ⟨"SUB", 0x51#64, 0xFFFFFFFFFFF000FF#64⟩,
    ⟨"MUL", 0x52#64, 0xFFFFFFFFFFF000FF#64⟩,
    ⟨"DIV", 0x53#64, 0xFFFFFFFFFFF000FF#64⟩,
    ⟨"MOD", 0x54#64, 0xFFFFFFFFFFF000FF#64⟩,
    ⟨"TOSTR", 0x60#64, 0xFFFFFFFFFFFF0FFF#64⟩,
    ⟨"TOBITS", 0x61#64, 0xFFFFFFFFFFFF0FFF#64⟩ ]

/-- "A command is legal exactly when (c & mask) == match" (30_encoding.md R86), for some row of the table. -/
def matchesTable (c : Word64) : Bool := opcodeTable.any fun r => c &&& r.mask == r.pattern

end Sys2Proof
end

