-- ==== Sys2Proof/Decode.lean ====
section
/-! DEFINITION. The decoder of 30_encoding.md R86, total on every 64-bit CMD value and rejecting by name, and the encoder of
R80. -/

namespace Sys2Proof

/-- Why a CMD value is no command: the conditions of 30_encoding.md R84, in the order of R86. The machine answers each
with IllegalCommand. -/
inductive Illegal where
  /-- c[63:32] is not 0 (R84 condition 1). -/
  | highBits
  /-- c[31:21] is not 0 (R84 condition 2). -/
  | reservedBits
  /-- c[7:0] is not an opcode of R81 (R84 condition 3, R85). -/
  | reservedOpcode (op : Nat)
  /-- A field that the opcode's format lists as must-be-zero is not 0 (R84 condition 4). -/
  | fieldNotZero (op : Nat)
  deriving DecidableEq, Repr

/-- The bits c[hi:lo] as a natural number: floor(c / 2^lo) mod 2^(hi-lo+1) (00_scope.md R11). -/
def bitField (c : Word64) (hi lo : Nat) : Nat := c.toNat / 2 ^ lo % 2 ^ (hi - lo + 1)

/-- A 4-bit register field whose lowest bit is bit lo (30_encoding.md R80, R83). -/
def regField (c : Word64) (lo : Nat) : VReg := ⟨c.toNat / 2 ^ lo % 16, Nat.mod_lt _ (by decide)⟩

/-- The instruction, if the fields its format lists as must-be-zero are zero (30_encoding.md R82). -/
def requireZero (op : Nat) (zero : Bool) (i : Instr) : Except Illegal Instr :=
  if zero then .ok i else .error (.fieldNotZero op)

/-- The opcode map with each format's must-be-zero fields (30_encoding.md R81, R82). -/
def decodeFields (op : Nat) (rd rs1 rs2 : VReg) (f : Bool) : Except Illegal Instr :=
  match op with
  | 0x01 => requireZero op (rs1 == 0 && rs2 == 0) (.newcap rd f)
  | 0x02 => requireZero op (rs1 == 0 && rs2 == 0 && !f) (.ldu rd)
  | 0x03 => requireZero op (rs1 == 0 && rs2 == 0 && !f) (.ldstr rd)
  | 0x04 => requireZero op (rs2 == 0 && !f) (.copy rd rs1)
  | 0x10 => requireZero op (rs1 == 0 && rs2 == 0) (.expand rd f)
  | 0x11 => requireZero op (rs1 == 0 && rs2 == 0 && !f) (.trim rd)
  | 0x12 => requireZero op (rd == 0 && rs2 == 0 && !f) (.getb rs1)
  | 0x13 => requireZero op (rs1 == 0 && rs2 == 0) (.setb rd f)
  | 0x14 => requireZero op (rs1 == 0 && rs2 == 0) (.setall rd f)
  | 0x15 => requireZero op (rd == 0 && rs2 == 0 && !f) (.size rs1)
  | 0x20 => requireZero op (rd == 0 && !f) (.cmp rs1 rs2)
  | 0x21 => requireZero op (rd == 0 && rs2 == 0 && !f) (.cmpu rs1)
  | 0x30 => requireZero op (!f) (.and rd rs1 rs2)
  | 0x31 => requireZero op (!f) (.or rd rs1 rs2)
  | 0x32 => requireZero op (!f) (.xor rd rs1 rs2)
  | 0x33 => requireZero op (rs2 == 0 && !f) (.not rd rs1)
  | 0x40 => requireZero op (rs2 == 0 && !f) (.shl rd rs1)
  | 0x41 => requireZero op (rs2 == 0 && !f) (.shr rd rs1)
  | 0x50 => requireZero op (!f) (.add rd rs1 rs2)
  | 0x51 => requireZero op (!f) (.sub rd rs1 rs2)
  | 0x52 => requireZero op (!f) (.mul rd rs1 rs2)
  | 0x53 => requireZero op (!f) (.div rd rs1 rs2)
  | 0x54 => requireZero op (!f) (.mod rd rs1 rs2)
  | 0x60 => requireZero op (rd == 0 && rs2 == 0 && !f) (.tostr rs1)
  | 0x61 => requireZero op (rd == 0 && rs2 == 0 && !f) (.tobits rs1)
  | _ => .error (.reservedOpcode op)

/-- The decoder, a total function on any 64-bit value (30_encoding.md R86). -/
def decode (c : Word64) : Except Illegal Instr :=
  if bitField c 63 32 ≠ 0 then .error .highBits
  else if bitField c 31 21 ≠ 0 then .error .reservedBits
  else decodeFields (bitField c 7 0) (regField c 8) (regField c 12) (regField c 16) (bitField c 20 20 == 1)

/-- `cmd = OP | RD << 8 | RS1 << 12 | RS2 << 16 | F << 20` (30_encoding.md R80). The fields do not overlap, so the sum is
the bitwise or. -/
def commandWord (op : Nat) (rd rs1 rs2 : VReg) (f : Bool) : Word64 :=
  BitVec.ofNat 64 (op + rd.val * 256 + rs1.val * 4096 + rs2.val * 65536 + f.toNat * 1048576)

/-- The encoder: the CMD value of an instruction, its unused fields 0 (30_encoding.md R80, R81, R82). -/
def encode : Instr → Word64
  | .newcap rd f => commandWord 0x01 rd 0 0 f
  | .ldu rd => commandWord 0x02 rd 0 0 false
  | .ldstr rd => commandWord 0x03 rd 0 0 false
  | .copy rd rs1 => commandWord 0x04 rd rs1 0 false
  | .expand rd f => commandWord 0x10 rd 0 0 f
  | .trim rd => commandWord 0x11 rd 0 0 false
  | .getb rs1 => commandWord 0x12 0 rs1 0 false
  | .setb rd f => commandWord 0x13 rd 0 0 f
  | .setall rd f => commandWord 0x14 rd 0 0 f
  | .size rs1 => commandWord 0x15 0 rs1 0 false
  | .cmp rs1 rs2 => commandWord 0x20 0 rs1 rs2 false
  | .cmpu rs1 => commandWord 0x21 0 rs1 0 false
  | .and rd rs1 rs2 => commandWord 0x30 rd rs1 rs2 false
  | .or rd rs1 rs2 => commandWord 0x31 rd rs1 rs2 false
  | .xor rd rs1 rs2 => commandWord 0x32 rd rs1 rs2 false
  | .not rd rs1 => commandWord 0x33 rd rs1 0 false
  | .shl rd rs1 => commandWord 0x40 rd rs1 0 false
  | .shr rd rs1 => commandWord 0x41 rd rs1 0 false
  | .add rd rs1 rs2 => commandWord 0x50 rd rs1 rs2 false
  | .sub rd rs1 rs2 => commandWord 0x51 rd rs1 rs2 false
  | .mul rd rs1 rs2 => commandWord 0x52 rd rs1 rs2 false
  | .div rd rs1 rs2 => commandWord 0x53 rd rs1 rs2 false
  | .mod rd rs1 rs2 => commandWord 0x54 rd rs1 rs2 false
  | .tostr rs1 => commandWord 0x60 0 rs1 0 false
  | .tobits rs1 => commandWord 0x61 0 rs1 0 false

/-- The instruction the decoder reads from a CMD value whose low nbits bits are those of w and whose other bits are 0.
A command is one 64-bit value, not bytes in memory, so no byte order enters (30_encoding.md R80, 20_memory.md R65). -/
def decodeTableWord (nbits w : Nat) : Option Instr :=
  if w % 2 ^ nbits < 2 ^ 64 then (decode (BitVec.ofNat 64 (w % 2 ^ nbits))).toOption else none

end Sys2Proof
end

