-- ==== Sys2Proof/Machine/State.lean ====
section
/-! DEFINITION. The state of the machine: everything 10_state.md R39 lists, the parameters (R34, R35), the level of the
reset input (70_reset_and_hazards.md R230), and the model's own fields: the arrival sequence (20_memory.md R61), the last
answer on the bus (R56) and the number of free values drawn (70_reset_and_hazards.md R242). -/

namespace Sys2Proof.Machine

/-- A value `<len, val>` (00_scope.md R12): len is the bit length, val the magnitude its bits spell. -/
structure Value where
  len : Nat
  val : Nat
  deriving DecidableEq, Repr

/-- EMPTY, the zero-length value (00_scope.md R12). -/
def Value.empty : Value := { len := 0, val := 0 }

/-- ZERO1, the 1-bit zero value (00_scope.md R12). -/
def Value.zero1 : Value := { len := 1, val := 0 }

/-- The legal values of STATUS.ERR (10_state.md R30, 60_exceptions.md R200): codes 0 to 5. -/
inductive ErrCode where
  | none | invalidFormat | invalidArgument | divisionByZero | overflow | illegalCommand
  deriving DecidableEq, Repr

/-- The bytes written since reset, as (index, byte) cells: rising indexes, and no cell for an unwritten byte
(10_state.md R36, R39; 93_implementation_defined.md U8). -/
abbrev Mem := List Host.Cell

/-- One event of the arrival sequence (20_memory.md R61): a host access at an offset of the window (00_scope.md R14), a
point at which the engine takes its turn (60_exceptions.md R202), or a change of the reset input (70_reset_and_hazards.md
R230). A write of n bytes carries its data in bits [8n-1:0]. -/
inductive Event where
  | read (off width : Nat)
  | write (off width : Nat) (data : Word64)
  | engine
  | resetLine (asserted : Bool)
  deriving DecidableEq, Repr

/-- What the BIE answers to a host access: the bus-error response (20_memory.md R56) and, for a read, the data. -/
structure Response where
  busError : Bool
  data : Option Word64
  deriving DecidableEq, Repr

/-- The state of the BIE. -/
structure State where
  /-- The parameters; no step changes them (00_scope.md R8, R9; 20_memory.md R50). -/
  params : Params
  /-- V0 to V15 (10_state.md R20). -/
  v : Vector Value 16
  /-- CMD, the last accepted command value (10_state.md R27). -/
  cmd : Word64
  /-- ARG (10_state.md R28). -/
  arg : Word64
  /-- RESULT (10_state.md R29). -/
  result : Word64
  /-- STATUS.BUSY (10_state.md R30). -/
  busy : Bool
  /-- STATUS.DONE (10_state.md R30). -/
  done : Bool
  /-- STATUS.CMDLOST (10_state.md R30). -/
  cmdLost : Bool
  /-- STATUS.ERR (10_state.md R30). -/
  err : ErrCode
  /-- CTRL.IE (10_state.md R31). -/
  ie : Bool
  /-- CLEN (10_state.md R32). -/
  clen : Word64
  /-- CBUF, the written bytes (10_state.md R36). -/
  cbuf : Mem
  /-- The level of the reset input (70_reset_and_hazards.md R230). -/
  resetIn : Bool
  /-- The model's own: what is still to arrive (20_memory.md R61). -/
  arrivals : List Event
  /-- The model's own: the answer to the last host access (20_memory.md R56). -/
  response : Option Response
  /-- The model's own: how many free values have been drawn (70_reset_and_hazards.md R242). -/
  draws : Nat
  deriving DecidableEq, Repr

/-- Why the model stops with a fault (60_exceptions.md R216). Both are safe: no claim rests on an unwritten byte. -/
inductive Fault where
  /-- Raised by LDSTR when it reads CBUF[index], index < CLEN, and that byte has not been written since reset. Safe. -/
  | unwrittenChar (index : Nat)
  /-- Raised by a host read that covers CBUF[index], which has not been written since reset. Safe. -/
  | unwrittenRead (index : Nat)
  deriving DecidableEq, Repr

/-- Why the model refuses. -/
inductive Refusal where
  /-- Raised by an arm of exec that has no meaning yet; no arm of this model does. Safe. -/
  | notModelled (mnemonic : String)
  deriving DecidableEq, Repr

/-- The three outcomes of a step of this machine. -/
abbrev Outcome := Host.Outcome State Fault Refusal

/-- The reset values of 70_reset_and_hazards.md R230 for a BIE with the given parameters. -/
def State.resetOf (p : Params) : State where
  params := p
  v := Vector.replicate 16 Value.empty
  cmd := 0
  arg := 0
  result := 0
  busy := false
  done := false
  cmdLost := false
  err := .none
  ie := false
  clen := 0
  cbuf := []
  resetIn := false
  arrivals := []
  response := none
  draws := 0

/-- The machine right after reset, with the reference parameters (70_reset_and_hazards.md R230; 00_scope.md R8, R9). -/
def State.reset : State := State.resetOf Params.reference

end Sys2Proof.Machine
end

