-- ==== Sys2Proof/Machine/Ops.lean ====
section
/-! DEFINITION. The named operations over the value registers, CBUF and the completion fields: every command and every host
access goes through them. Error completion is the BIE's whole "exception entry" (60_exceptions.md R203, R207); there is no
return from one (R208). -/

namespace Sys2Proof.Machine

/-! ### Value registers -/

/-- `V[i]` (00_scope.md R14). -/
def State.readV (s : State) (r : VReg) : Value := s.v[r.val]

/-- `V[i] <- x` (00_scope.md R14). No register is hardwired or aliased (10_state.md R20). -/
def State.writeV (s : State) (r : VReg) (x : Value) : State := { s with v := s.v.set r.val x }

/-! ### The character buffer -/

/-- Byte a, or none if it is unwritten (10_state.md R36). -/
def Mem.read : Mem → Nat → Option Byte
  | [], _ => none
  | (a', b) :: m, a => if a = a' then some b else Mem.read m a

/-- Write byte a, keeping the cells in rising order. -/
def Mem.write : Mem → Nat → Byte → Mem
  | [], a, b => [(a, b)]
  | (a', b') :: m, a, b =>
    if a < a' then (a, b) :: (a', b') :: m
    else if a = a' then (a, b) :: m
    else (a', b') :: Mem.write m a b

/-- Write bytes from index a up. -/
def Mem.writeBytes : Mem → Nat → List Byte → Mem
  | m, _, [] => m
  | m, a, b :: bs => Mem.writeBytes (Mem.write m a b) (a + 1) bs

/-- The n bytes from index a as a little-endian number (20_memory.md R53), or the lowest unwritten index. -/
def Mem.readLE (m : Mem) : Nat → Nat → Except Nat Nat
  | 0, _ => .ok 0
  | n + 1, a =>
    match Mem.read m a with
    | none => .error a
    | some b =>
      match Mem.readLE m n (a + 1) with
      | .ok rest => .ok (b.toNat + 256 * rest)
      | .error j => .error j

/-- The n low bytes of d, least significant first (20_memory.md R53). -/
def bytesLE (d : Nat) : Nat → List Byte
  | 0 => []
  | n + 1 => BitVec.ofNat 8 d :: bytesLE (d / 256) n

/-- `CBUF[j]` (00_scope.md R14). -/
def State.cbufByte (s : State) (j : Nat) : Option Byte := Mem.read s.cbuf j

/-! ### Completion -/

/-- The completion fields: `ERR <- code; BUSY <- 0; DONE <- 1` (60_exceptions.md R202). -/
def State.finish (s : State) (e : ErrCode) : State := { s with err := e, busy := false, done := true }

/-- `raise Error(code)`: the command ends and writes nothing but the completion fields (00_scope.md R14, 60_exceptions.md
R203). No state is saved, no mode changes, no vector is taken (R207). -/
def raiseError (s : State) (e : ErrCode) : Outcome := .next (s.finish e)

/-- A successful command that writes nothing else. -/
def commitNothing (s : State) : Outcome := .next (s.finish .none)

/-- A successful command that writes one value register. -/
def commitValue (s : State) (rd : VReg) (x : Value) : Outcome := .next ((s.writeV rd x).finish .none)

/-- A successful command that writes RESULT, zero-extended to 64 bits (10_state.md R29). -/
def commitResult (s : State) (r : Nat) : Outcome := .next ({ s with result := BitVec.ofNat 64 r }.finish .none)

/-- A successful command that writes text into CBUF from CBUF[0] and its length into CLEN; bytes at and above the new CLEN
are not changed (47_conversion.md, 92_eei_decisions.md D20). -/
def commitText (s : State) (text : List Byte) : Outcome :=
  .next ({ s with cbuf := Mem.writeBytes s.cbuf 0 text, clen := BitVec.ofNat 64 text.length }.finish .none)

/-! ### Reset -/

/-- The reset of 70_reset_and_hazards.md R230: every piece of the BIE's state at its reset value. The parameters, the reset
input, and the model's own record of the outside world are not the BIE's registers and stay (log entry 10). -/
def State.clear (s : State) : State :=
  { State.resetOf s.params with
    resetIn := s.resetIn, arrivals := s.arrivals, response := s.response, draws := s.draws }

/-- "While the reset input is asserted ... the BIE holds the reset state" (70_reset_and_hazards.md R230). -/
def State.held (s : State) : State := if s.resetIn then s.clear else s

/-- A change of the reset input. Asserting it abandons a command in flight; "on its release" the BIE holds the reset state
(70_reset_and_hazards.md R230). Driving it low while it is low changes nothing. -/
def State.driveReset (s : State) (asserted : Bool) : State :=
  if asserted || s.resetIn then { s.clear with resetIn := asserted } else s

end Sys2Proof.Machine
end

