-- ==== Sys2Proof/Machine/Flags.lean ====
section
/-! DEFINITION. The status, control and result codes: STATUS and CTRL as words and what a write to them does (10_state.md
R30, R31), the error codes (60_exceptions.md R200), the comparison codes (42_compare.md R140), the interrupt output
(10_state.md R38). No command sets a flag from an arithmetic outcome (10_state.md R30). -/

namespace Sys2Proof.Machine

/-- The number of an error code (60_exceptions.md R200). -/
def ErrCode.code : ErrCode → Nat
  | .none => 0
  | .invalidFormat => 1
  | .invalidArgument => 2
  | .divisionByZero => 3
  | .overflow => 4
  | .illegalCommand => 5

/-- STATUS as read: BUSY bit 0, DONE bit 1, CMDLOST bit 2, ERR bits [11:8], the rest 0 (10_state.md R30). -/
def State.statusWord (s : State) : Word64 :=
  BitVec.ofNat 64 (s.busy.toNat + s.done.toNat * 2 + s.cmdLost.toNat * 4 + s.err.code * 256)

/-- A write to STATUS: DONE and CMDLOST are cleared where the written bit is 1; nothing else changes (10_state.md R30). -/
def State.writeStatus (s : State) (d : Word64) : State :=
  { s with done := s.done && !d.getLsbD 1, cmdLost := s.cmdLost && !d.getLsbD 2 }

/-- CTRL as read: IE bit 0; SRST and the reserved bits read 0 (10_state.md R31). -/
def State.ctrlWord (s : State) : Word64 := BitVec.ofNat 64 s.ie.toNat

/-- A write to CTRL: SRST = 1 performs a soft reset, whatever the other bits; SRST = 0 only updates IE (10_state.md R31,
70_reset_and_hazards.md R231). -/
def State.writeCtrl (s : State) (d : Word64) : State :=
  if d.getLsbD 1 then s.clear else { s with ie := d.getLsbD 0 }

/-- `irq = CTRL.IE & STATUS.DONE` (10_state.md R38, 60_exceptions.md R206). -/
def State.irq (s : State) : Bool := s.ie && s.done

/-- The comparison code: 0 equal, 1 less, 2 greater (42_compare.md R140). -/
def compareCode (a b : Nat) : Nat := if a = b then 0 else if a < b then 1 else 2

end Sys2Proof.Machine
end

