-- ==== Sys2Proof/Machine/Operands.lean ====
section
/-! DEFINITION. The operand forms and the helper functions of the command rules: ARG as a number, bitlen, ones and trim
(00_scope.md R11, R13), the string operand of LDSTR (40_construction.md R103) and the texts of TOSTR and TOBITS
(47_conversion.md R190, R191; 00_scope.md R16). -/

namespace Sys2Proof.Machine

/-- ARG as an unsigned integer, 0 to 2^64 - 1 (30_encoding.md R83). -/
abbrev State.argNat (s : State) : Nat := s.arg.toNat

/-- `ones(n) = 2^n - 1` (00_scope.md R11). -/
def ones (n : Nat) : Nat := 2 ^ n - 1

/-- `bitlen(n)`: 1 for 0, floor(log2(n)) + 1 otherwise (00_scope.md R13). -/
def bitlen (n : Nat) : Nat := if n = 0 then 1 else Nat.log2 n + 1

/-- The value of minimal length with magnitude n: `<bitlen(n), n>` (00_scope.md R13, R17). -/
def minimal (n : Nat) : Value := { len := bitlen n, val := n }

/-- `trim(<l, v>) = <bitlen(v), v>` (00_scope.md R13). -/
def Value.trim (x : Value) : Value := minimal x.val

/-- `bit(v, i)`, and 0 for i at or above the length (10_state.md R21, 41_structural.md R122). -/
def Value.bit (x : Value) (i : Nat) : Nat := if i < x.len then x.val / 2 ^ i % 2 else 0

/-- What reading a binary-digit string gives (40_construction.md R103). -/
inductive Parsed where
  | value (v : Nat)
  | badChar
  | unwritten (index : Nat)
  deriving DecidableEq, Repr

/-- Read n characters from index j up, most significant first, after a string of magnitude acc. The first character that is
no binary digit, or is unwritten, ends it (40_construction.md R103, 60_exceptions.md R205; log entry 6). -/
def parseBits (m : Mem) : Nat → Nat → Nat → Parsed
  | 0, _, acc => .value acc
  | n + 1, j, acc =>
    match Mem.read m j with
    | none => .unwritten j
    | some c =>
      if c = 0x30#8 then parseBits m n (j + 1) (2 * acc)
      else if c = 0x31#8 then parseBits m n (j + 1) (2 * acc + 1)
      else .badChar

/-- `ALPHA(d)`, the digit of weight d: '0'..'9', 'a'..'z' (47_conversion.md R190, 00_scope.md R16). -/
def digitChar (d : Nat) : Byte := if d ≤ 9 then BitVec.ofNat 8 (0x30 + d) else BitVec.ofNat 8 (0x61 + (d - 10))

/-- The base-b digits of v in front of the digits ds, by repeated division; fuel bounds the number of digits. -/
def digitsLoop (b : Nat) : Nat → Nat → List Nat → List Nat
  | 0, _, ds => ds
  | fuel + 1, v, ds => if v = 0 then ds else digitsLoop b fuel (v / b) (v % b :: ds)

/-- The base-b digits of v, most significant first; [0] for 0 (47_conversion.md R190). A value has at most bitlen(v)
digits in any base from 2 up. -/
def digits (b v : Nat) : List Nat := if v = 0 then [0] else digitsLoop b (bitlen v) v []

/-- The bits of v at positions l-1 down to 0 as characters (47_conversion.md R191). -/
def bitChars : Nat → Nat → List Byte
  | 0, _ => []
  | l + 1, v => BitVec.ofNat 8 (0x30 + v / 2 ^ l % 2) :: bitChars l v

end Sys2Proof.Machine
end

