-- ==== Sys2Proof/Machine/Bus.lean ====
section
/-! DEFINITION. Host accesses of the register window (20_memory.md R50 to R59; 10_state.md R27 to R36; 60_exceptions.md R201;
70_reset_and_hazards.md R240 to R242). -/

namespace Sys2Proof.Machine

/-- ID: tag 0x42494E54, command-set revision 1 (10_state.md R33). -/
def idWord : Word64 := 0x0000000142494E54#64

/-- The window offset of an absolute bus address, if the window covers it: it "spans offsets 0x0000 to
0x1000 + CBUF_SIZE - 1" from BIE_BASE (20_memory.md R50). The accesses of an arrival sequence carry offsets (log entry 7). -/
def windowOffset (p : Params) (address : Nat) : Option Nat :=
  if p.bieBase ≤ address ∧ address < p.bieBase + 0x1000 + p.cbufSize then some (address - p.bieBase) else none

/-- Whether an access is well formed: width 1, 2, 4 or 8, naturally aligned, 8 bytes wide below 0x1000, and no byte at or
beyond 0x1000 + CBUF_SIZE (20_memory.md R53, R54, R56). -/
def accessOk (p : Params) (off width : Nat) : Bool :=
  (width == 1 || width == 2 || width == 4 || width == 8) && off % width == 0 &&
    if off < 0x1000 then width == 8 else decide (off + width ≤ 0x1000 + p.cbufSize)

/-- Answer the access. -/
def State.respond (s : State) (busError : Bool) (data : Option Word64) : State :=
  { s with response := some { busError := busError, data := data } }

/-- A read that returns d. -/
def State.answer (s : State) (d : Word64) : State := s.respond false (some d)

/-- A read of width bytes that returns a value drawn freely (70_reset_and_hazards.md R242, 93_implementation_defined.md U9). -/
def State.answerFree (s : State) (width : Nat) : State :=
  { s with draws := s.draws + 1 }.answer (BitVec.ofNat 64 ((Config.freeData s.draws).toNat % 2 ^ (8 * width)))

/-- A read of a result register: its value, or a free value while BUSY = 1 (70_reset_and_hazards.md R242). -/
def State.answerResult (s : State) (d : Word64) : State := if s.busy then s.answerFree 8 else s.answer d

/-- A well-formed read below 0x1000 (20_memory.md R52, R55). -/
def readRegister (off : Nat) (s : State) : State :=
  match off with
  | 0x00 => s.answer s.cmd
  | 0x08 => s.answer s.arg
  | 0x10 => s.answerResult s.result
  | 0x18 => s.answer s.statusWord
  | 0x20 => s.answer s.ctrlWord
  | 0x28 => s.answerResult s.clen
  | 0x30 => s.answer idWord
  | 0x38 => s.answer (BitVec.ofNat 64 s.params.maxBits)
  | 0x40 => s.answer (BitVec.ofNat 64 s.params.cbufSize)
  | _ => s.answer 0

/-- A well-formed read of CBUF[j .. j+width-1] (20_memory.md R53): a free value while BUSY = 1 (70_reset_and_hazards.md R242);
otherwise an unwritten byte is a fault of the model (60_exceptions.md R216). -/
def readCbuf (j width : Nat) (s : State) : Outcome :=
  if s.busy then .next (s.answerFree width)
  else
    match Mem.readLE s.cbuf width j with
    | .ok d => .next (s.answer (BitVec.ofNat 64 d))
    | .error k => .fault (.unwrittenRead k)

/-- `MemRead(off, width)` (00_scope.md R14). A bus-error read returns data 0 (20_memory.md R56). -/
def hostRead (off width : Nat) (s : State) : Outcome :=
  if accessOk s.params off width then
    if off < 0x1000 then .next (readRegister off s) else readCbuf (off - 0x1000) width s
  else .next (s.respond true (some 0))

/-- A write to CMD: issue, or dropped with CMDLOST <- 1 while BUSY = 1 (60_exceptions.md R201, 70_reset_and_hazards.md R240). -/
def State.writeCmd (s : State) (c : Word64) : State :=
  if s.busy then { s with cmdLost := true } else { s with cmd := c, busy := true, done := false }

/-- A write to ARG, dropped while BUSY = 1 (10_state.md R28, 70_reset_and_hazards.md R241). -/
def State.writeArg (s : State) (d : Word64) : State := if s.busy then s else { s with arg := d }

/-- A write to CLEN, dropped while BUSY = 1 (10_state.md R32, 70_reset_and_hazards.md R241). -/
def State.writeClen (s : State) (d : Word64) : State := if s.busy then s else { s with clen := d }

/-- A write of the low width bytes of d to CBUF[j .. j+width-1], dropped while BUSY = 1 (20_memory.md R53,
70_reset_and_hazards.md R241). -/
def State.writeCbuf (s : State) (j width : Nat) (d : Word64) : State :=
  if s.busy then s else { s with cbuf := Mem.writeBytes s.cbuf j (bytesLE d.toNat width) }

/-- A well-formed write below 0x1000; RESULT, ID, MAXBITS, CBUFSZ and the reserved offsets ignore it (20_memory.md R52, R55). -/
def writeRegister (off : Nat) (d : Word64) (s : State) : State :=
  match off with
  | 0x00 => s.writeCmd d
  | 0x08 => s.writeArg d
  | 0x18 => s.writeStatus d
  | 0x20 => s.writeCtrl d
  | 0x28 => s.writeClen d
  | _ => s

/-- `MemWrite(off, width, d)` (00_scope.md R14). While the reset input is asserted the BIE holds the reset state, so a write
has no effect (70_reset_and_hazards.md R230; log entry 8). -/
def hostWrite (off width : Nat) (d : Word64) (s : State) : Outcome :=
  if accessOk s.params off width then
    let t :=
      if s.resetIn then s
      else if off < 0x1000 then writeRegister off d s
      else s.writeCbuf (off - 0x1000) width d
    .next (t.respond false none)
  else .next (s.respond true none)

end Sys2Proof.Machine
end

