-- ==== Sys2Proof/Machine/AddSub.lean ====
section
/-! DEFINITION. Addition and saturating subtraction (45_addsub.md R170, R171). Every result is trimmed. -/

namespace Sys2Proof.Machine

/-- ADD (45_addsub.md R170): the Overflow test is on the stored lengths. -/
def execAdd (rd rs1 rs2 : VReg) (s : State) : Outcome :=
  let a := s.readV rs1
  let b := s.readV rs2
  if max a.len b.len + 1 > s.params.maxBits then raiseError s .overflow
  else commitValue s rd (minimal (a.val + b.val))

/-- SUB (45_addsub.md R171): a < b clamps to ZERO1. -/
def execSub (rd rs1 rs2 : VReg) (s : State) : Outcome :=
  let a := s.readV rs1
  let b := s.readV rs2
  if a.val < b.val then commitValue s rd .zero1
  else commitValue s rd (minimal (a.val - b.val))

end Sys2Proof.Machine
end

