-- ==== Sys2Proof/Machine/Bitwise.lean ====
section
/-! DEFINITION. Bitwise logic (43_bitwise.md R150 to R154). The width of a two-operand result is the larger width (R150);
no result is trimmed (41_structural.md R126). -/

namespace Sys2Proof.Machine

/-- A bitwise command of two operands: width max(la, lb) (43_bitwise.md R150). -/
def commitBitwise (op : Nat → Nat → Nat) (rd rs1 rs2 : VReg) (s : State) : Outcome :=
  let a := s.readV rs1
  let b := s.readV rs2
  commitValue s rd { len := max a.len b.len, val := op a.val b.val }

/-- AND (43_bitwise.md R151). -/
def execAnd (rd rs1 rs2 : VReg) (s : State) : Outcome := commitBitwise (fun a b => a &&& b) rd rs1 rs2 s

/-- OR (43_bitwise.md R152). -/
def execOr (rd rs1 rs2 : VReg) (s : State) : Outcome := commitBitwise (fun a b => a ||| b) rd rs1 rs2 s

/-- XOR (43_bitwise.md R153). -/
def execXor (rd rs1 rs2 : VReg) (s : State) : Outcome := commitBitwise (fun a b => a ^^^ b) rd rs1 rs2 s

/-- NOT (43_bitwise.md R154). -/
def execNot (rd rs1 : VReg) (s : State) : Outcome :=
  let a := s.readV rs1
  commitValue s rd { len := a.len, val := ones a.len - a.val }

end Sys2Proof.Machine
end

