-- ==== Sys2Proof/Machine/Compare.lean ====
section
/-! DEFINITION. Ordering and equality (42_compare.md R140 to R142). Lengths do not matter, only magnitudes. -/

namespace Sys2Proof.Machine

/-- CMP (42_compare.md R141). -/
def execCmp (rs1 rs2 : VReg) (s : State) : Outcome :=
  commitResult s (compareCode (s.readV rs1).val (s.readV rs2).val)

/-- CMPU (42_compare.md R142). -/
def execCmpu (rs1 : VReg) (s : State) : Outcome := commitResult s (compareCode (s.readV rs1).val s.argNat)

end Sys2Proof.Machine
end

