-- ==== Sys2Proof/Machine/Construction.lean ====
section
/-! DEFINITION. The construction commands (40_construction.md R100 to R104). -/

namespace Sys2Proof.Machine

/-- NEWCAP (40_construction.md R100, R101). -/
def execNewcap (rd : VReg) (f : Bool) (s : State) : Outcome :=
  if s.argNat > s.params.maxBits then raiseError s .overflow
  else commitValue s rd { len := s.argNat, val := if f then ones s.argNat else 0 }

/-- LDU (40_construction.md R102). -/
def execLdu (rd : VReg) (s : State) : Outcome := commitValue s rd (minimal s.argNat)

/-- LDSTR (40_construction.md R103): Overflow is checked before any character; an unwritten character is a fault of the
model (60_exceptions.md R216). -/
def execLdstr (rd : VReg) (s : State) : Outcome :=
  if s.clen.toNat > s.params.maxBits then raiseError s .overflow
  else
    match parseBits s.cbuf s.clen.toNat 0 0 with
    | .value v => commitValue s rd { len := s.clen.toNat, val := v }
    | .badChar => raiseError s .invalidFormat
    | .unwritten j => .fault (.unwrittenChar j)

/-- COPY (40_construction.md R104). -/
def execCopy (rd rs1 : VReg) (s : State) : Outcome := commitValue s rd (s.readV rs1)

end Sys2Proof.Machine
end

