-- ==== Sys2Proof/Machine/Conversion.lean ====
section
/-! DEFINITION. Base conversion and display (47_conversion.md R190, R191). Neither command changes a value register. -/

namespace Sys2Proof.Machine

/-- TOSTR (47_conversion.md R190). -/
def execTostr (rs1 : VReg) (s : State) : Outcome :=
  let b := s.argNat
  if b < 2 ∨ b > 36 then raiseError s .invalidArgument
  else commitText s ((digits b (s.readV rs1).val).map digitChar)

/-- TOBITS (47_conversion.md R191). -/
def execTobits (rs1 : VReg) (s : State) : Outcome :=
  let a := s.readV rs1
  commitText s (bitChars a.len a.val)

end Sys2Proof.Machine
end

