-- ==== Sys2Proof/Machine/MulDiv.lean ====
section
/-! DEFINITION. Multiplication, division and modulo (46_muldiv.md R180 to R183). Every result is trimmed. -/

namespace Sys2Proof.Machine

/-- MUL (46_muldiv.md R180): the zero fast path comes before the Overflow test on the stored lengths. -/
def execMul (rd rs1 rs2 : VReg) (s : State) : Outcome :=
  let a := s.readV rs1
  let b := s.readV rs2
  if a.val = 0 ∨ b.val = 0 then commitValue s rd .zero1
  else if a.len + b.len > s.params.maxBits then raiseError s .overflow
  else commitValue s rd (minimal (a.val * b.val))

/-- DIV (46_muldiv.md R181, R182). -/
def execDiv (rd rs1 rs2 : VReg) (s : State) : Outcome :=
  let a := s.readV rs1
  let b := s.readV rs2
  if b.val = 0 then raiseError s .divisionByZero
  else commitValue s rd (minimal (a.val / b.val))

/-- MOD (46_muldiv.md R181, R183). -/
def execMod (rd rs1 rs2 : VReg) (s : State) : Outcome :=
  let a := s.readV rs1
  let b := s.readV rs2
  if b.val = 0 then raiseError s .divisionByZero
  else commitValue s rd (minimal (a.val % b.val))

end Sys2Proof.Machine
end

