-- ==== Sys2Proof/Machine/Shift.lean ====
section
/-! DEFINITION. Shifts (44_shift.md R160, R161). The count is ARG; no result is trimmed. -/

namespace Sys2Proof.Machine

/-- SHL (44_shift.md R160): la + k is computed without wrap. -/
def execShl (rd rs1 : VReg) (s : State) : Outcome :=
  let a := s.readV rs1
  let k := s.argNat
  if a.len + k > s.params.maxBits then raiseError s .overflow
  else commitValue s rd { len := a.len + k, val := a.val * 2 ^ k }

/-- SHR (44_shift.md R161). -/
def execShr (rd rs1 : VReg) (s : State) : Outcome :=
  let a := s.readV rs1
  let k := s.argNat
  if k ≥ a.len then commitValue s rd .zero1
  else commitValue s rd { len := a.len - k, val := a.val / 2 ^ k }

end Sys2Proof.Machine
end

