-- ==== Sys2Proof/Machine/Structural.lean ====
section
/-! DEFINITION. Resizing, canonicalization and indexed access (41_structural.md R120 to R126). -/

namespace Sys2Proof.Machine

/-- EXPAND (41_structural.md R120): the no-op test comes before the Overflow test (60_exceptions.md R205). -/
def execExpand (rd : VReg) (f : Bool) (s : State) : Outcome :=
  let x := s.readV rd
  let n := s.argNat
  if n ≤ x.len then commitNothing s
  else if n > s.params.maxBits then raiseError s .overflow
  else commitValue s rd { len := n, val := x.val + if f then ones n - ones x.len else 0 }

/-- TRIM (41_structural.md R121). -/
def execTrim (rd : VReg) (s : State) : Outcome := commitValue s rd (s.readV rd).trim

/-- GETB (41_structural.md R122). -/
def execGetb (rs1 : VReg) (s : State) : Outcome := commitResult s ((s.readV rs1).bit s.argNat)

/-- SETB (41_structural.md R123). -/
def execSetb (rd : VReg) (f : Bool) (s : State) : Outcome :=
  let x := s.readV rd
  let p := s.argNat
  if p ≥ x.len then commitNothing s
  else commitValue s rd { len := x.len, val := if f then x.val ||| 2 ^ p else x.val &&& (ones x.len - 2 ^ p) }

/-- SETALL (41_structural.md R124). -/
def execSetall (rd : VReg) (f : Bool) (s : State) : Outcome :=
  let x := s.readV rd
  commitValue s rd { len := x.len, val := if f then ones x.len else 0 }

/-- SIZE (41_structural.md R125). -/
def execSize (rs1 : VReg) (s : State) : Outcome := commitResult s (s.readV rs1).len

end Sys2Proof.Machine
end

