-- ==== Sys2Proof/Machine/Dispatch.lean ====
section
/-! DEFINITION. `Exec(d, state)` of 60_exceptions.md R202 with the completion fields: one arm per command. -/

namespace Sys2Proof.Machine

/-- The completion of a decoded command: its writes and `ERR <- 0`, or `ERR <- code` alone; then BUSY <- 0, DONE <- 1
(60_exceptions.md R202, R203). -/
def exec (i : Instr) (s : State) : Host.Outcome State Fault Refusal :=
  match i with
  | .newcap rd f => Sys2Proof.Machine.execNewcap rd f s
  | .ldu rd => Sys2Proof.Machine.execLdu rd s
  | .ldstr rd => Sys2Proof.Machine.execLdstr rd s
  | .copy rd rs1 => Sys2Proof.Machine.execCopy rd rs1 s
  | .expand rd f => Sys2Proof.Machine.execExpand rd f s
  | .trim rd => Sys2Proof.Machine.execTrim rd s
  | .getb rs1 => Sys2Proof.Machine.execGetb rs1 s
  | .setb rd f => Sys2Proof.Machine.execSetb rd f s
  | .setall rd f => Sys2Proof.Machine.execSetall rd f s
  | .size rs1 => Sys2Proof.Machine.execSize rs1 s
  | .cmp rs1 rs2 => Sys2Proof.Machine.execCmp rs1 rs2 s
  | .cmpu rs1 => Sys2Proof.Machine.execCmpu rs1 s
  | .and rd rs1 rs2 => Sys2Proof.Machine.execAnd rd rs1 rs2 s
  | .or rd rs1 rs2 => Sys2Proof.Machine.execOr rd rs1 rs2 s
  | .xor rd rs1 rs2 => Sys2Proof.Machine.execXor rd rs1 rs2 s
  | .not rd rs1 => Sys2Proof.Machine.execNot rd rs1 s
  | .shl rd rs1 => Sys2Proof.Machine.execShl rd rs1 s
  | .shr rd rs1 => Sys2Proof.Machine.execShr rd rs1 s
  | .add rd rs1 rs2 => Sys2Proof.Machine.execAdd rd rs1 rs2 s
  | .sub rd rs1 rs2 => Sys2Proof.Machine.execSub rd rs1 rs2 s
  | .mul rd rs1 rs2 => Sys2Proof.Machine.execMul rd rs1 rs2 s
  | .div rd rs1 rs2 => Sys2Proof.Machine.execDiv rd rs1 rs2 s
  | .mod rd rs1 rs2 => Sys2Proof.Machine.execMod rd rs1 rs2 s
  | .tostr rs1 => Sys2Proof.Machine.execTostr rs1 s
  | .tobits rs1 => Sys2Proof.Machine.execTobits rs1 s

end Sys2Proof.Machine
end

