-- ==== Sys2Proof/Machine/Engine.lean ====
section
/-! DEFINITION. The engine's completion step (60_exceptions.md R202) and how one event of the arrival sequence acts
(20_memory.md R61). -/

namespace Sys2Proof.Machine

/-- `complete()` of 60_exceptions.md R202: decode CMD; an illegal value completes with IllegalCommand (30_encoding.md R84). -/
def complete (s : State) : Outcome :=
  match decode s.cmd with
  | .ok i => exec i s
  | .error _ => raiseError s .illegalCommand

/-- The engine's turn: completion while BUSY = 1; idle otherwise, all state kept (60_exceptions.md R202, R215). -/
def engineTurn (s : State) : Outcome := if s.busy then complete s else .next s

/-- One event of the arrival sequence (20_memory.md R61). -/
def deliver (e : Event) (s : State) : Outcome :=
  match e with
  | .read off width => hostRead off width s
  | .write off width d => hostWrite off width d s
  | .engine => engineTurn s
  | .resetLine asserted => .next (s.driveReset asserted)

/-- The next event: the head of the arrival sequence; when nothing is left to arrive, the engine's turn, so that a command
in flight completes (70_reset_and_hazards.md R245; log entry 2). -/
def takeNext (s : State) : Outcome :=
  match s.arrivals with
  | [] => engineTurn s
  | e :: es => deliver e { s with arrivals := es }

/-- The state in which the command value w has just been issued and the engine takes its turn next: what an accepted write
of w to CMD leaves (60_exceptions.md R201), the reset input released. -/
def State.issued (s : State) (w : Nat) : State :=
  { s with cmd := BitVec.ofNat 64 w, busy := true, done := false, resetIn := false, arrivals := .engine :: s.arrivals }

end Sys2Proof.Machine
end

