-- ==== Sys2Proof/Machine/Step.lean ====
section
/-! DEFINITION. One step of the machine: one event of the arrival sequence (20_memory.md R61). -/

namespace Sys2Proof.Machine

/-- One step. While the reset input is asserted the state is the reset state (70_reset_and_hazards.md R230). -/
def step (s : State) : Host.Outcome State Fault Refusal := takeNext s.held

/-- s with the command value w issued, so that the next step completes it (log entry 5: how a program comes to run). A
command is one CMD value, so nbits only bounds w. -/
def State.withFetchWord (s : State) (nbits w : Nat) : State := s.issued (w % 2 ^ nbits)

end Sys2Proof.Machine
end

