-- ==== Sys2Proof/Machine/Assembler.lean ====
section
/-! DEFINITION. The host notation of 30_encoding.md R87 and R88: what a line of a host program means as bus accesses, and the
pseudo-instructions with their expansions. A line becomes events of the arrival sequence. -/

namespace Sys2Proof.Machine

/-- What a `read` line names (30_encoding.md R87). -/
inductive ReadTarget where
  | result | status | clen
  | cbuf (first last : Nat)
  deriving DecidableEq, Repr

/-- A line of a host program (30_encoding.md R87). -/
inductive AsmLine where
  | command (i : Instr)
  | arg (n : Word64)
  | clen (n : Word64)
  | cbuf (text : List Byte)
  | read (r : ReadTarget)
  deriving DecidableEq, Repr

/-- `wait` reads STATUS until BUSY = 0 (30_encoding.md R87). The engine's turn comes first, so one read is enough
(log entry 11). -/
def waitEvents : List Event := [.engine, .read 0x18 8]

/-- The one-byte writes of text into CBUF from CBUF[j] (30_encoding.md R87). -/
def textEvents : Nat → List Byte → List Event
  | _, [] => []
  | j, b :: bs => .write (0x1000 + j) 1 (b.zeroExtend 64) :: textEvents (j + 1) bs

/-- The one-byte reads of n bytes of CBUF from CBUF[j] (30_encoding.md R87). -/
def byteReads : Nat → Nat → List Event
  | 0, _ => []
  | n + 1, j => .read (0x1000 + j) 1 :: byteReads n (j + 1)

/-- What a line means as bus accesses (30_encoding.md R87). -/
def AsmLine.events : AsmLine → List Event
  | .command i => .write 0x00 8 (encode i) :: waitEvents
  | .arg n => [.write 0x08 8 n]
  | .clen n => [.write 0x28 8 n]
  | .cbuf text => textEvents 0 text
  | .read .result => [.read 0x10 8]
  | .read .status => [.read 0x18 8]
  | .read .clen => [.read 0x28 8]
  | .read (.cbuf first last) => byteReads (last + 1 - first) first

/-- The pseudo-instructions (30_encoding.md R88). -/
inductive Pseudo where
  | newcap (vD : VReg) (n : Word64) (f : Bool)
  | ldu (vD : VReg) (n : Word64)
  | ldstr (vD : VReg) (s : List Byte)
  | expand (vD : VReg) (n : Word64) (f : Bool)
  | getb (vS : VReg) (p : Word64)
  | setb (vD : VReg) (p : Word64) (f : Bool)
  | cmpu (vS : VReg) (n : Word64)
  | shl (vD vS : VReg) (k : Word64)
  | shr (vD vS : VReg) (k : Word64)
  | tostr (vS : VReg) (b : Word64)
  | mov (vD vS : VReg)
  | clr (vD : VReg)
  deriving DecidableEq, Repr

/-- The expansion column of 30_encoding.md R88. -/
def Pseudo.lines : Pseudo → List AsmLine
  | .newcap vD n f => [.arg n, .command (.newcap vD f)]
  | .ldu vD n => [.arg n, .command (.ldu vD)]
  | .ldstr vD s => [.cbuf s, .clen (BitVec.ofNat 64 s.length), .command (.ldstr vD)]
  | .expand vD n f => [.arg n, .command (.expand vD f)]
  | .getb vS p => [.arg p, .command (.getb vS)]
  | .setb vD p f => [.arg p, .command (.setb vD f)]
  | .cmpu vS n => [.arg n, .command (.cmpu vS)]
  | .shl vD vS k => [.arg k, .command (.shl vD vS)]
  | .shr vD vS k => [.arg k, .command (.shr vD vS)]
  | .tostr vS b => [.arg b, .command (.tostr vS)]
  | .mov vD vS => [.command (.copy vD vS)]
  | .clr vD => [.arg 1, .command (.newcap vD false)]

/-- A host program as events of the arrival sequence. -/
def programEvents (lines : List AsmLine) : List Event := lines.flatMap AsmLine.events

/-- A register operand as written, `v0` to `v15` (30_encoding.md R87). -/
def regText (r : VReg) : String := "v" ++ toString r.val

/-- F as written, `0` or `1` (30_encoding.md R87). -/
def flagText (f : Bool) : String := if f then "1" else "0"

/-- A command as written: mnemonic in lower case, operands in the order RD, RS1, RS2, F (30_encoding.md R87). -/
def commandText : Instr → String
  | .newcap rd f => "newcap " ++ regText rd ++ ", " ++ flagText f
  | .ldu rd => "ldu " ++ regText rd
  | .ldstr rd => "ldstr " ++ regText rd
  | .copy rd rs1 => "copy " ++ regText rd ++ ", " ++ regText rs1
  | .expand rd f => "expand " ++ regText rd ++ ", " ++ flagText f
  | .trim rd => "trim " ++ regText rd
  | .getb rs1 => "getb " ++ regText rs1
  | .setb rd f => "setb " ++ regText rd ++ ", " ++ flagText f
  | .setall rd f => "setall " ++ regText rd ++ ", " ++ flagText f
  | .size rs1 => "size " ++ regText rs1
  | .cmp rs1 rs2 => "cmp " ++ regText rs1 ++ ", " ++ regText rs2
  | .cmpu rs1 => "cmpu " ++ regText rs1
  | .and rd rs1 rs2 => "and " ++ regText rd ++ ", " ++ regText rs1 ++ ", " ++ regText rs2
  | .or rd rs1 rs2 => "or " ++ regText rd ++ ", " ++ regText rs1 ++ ", " ++ regText rs2
  | .xor rd rs1 rs2 => "xor " ++ regText rd ++ ", " ++ regText rs1 ++ ", " ++ regText rs2
  | .not rd rs1 => "not " ++ regText rd ++ ", " ++ regText rs1
  | .shl rd rs1 => "shl " ++ regText rd ++ ", " ++ regText rs1
  | .shr rd rs1 => "shr " ++ regText rd ++ ", " ++ regText rs1
  | .add rd rs1 rs2 => "add " ++ regText rd ++ ", " ++ regText rs1 ++ ", " ++ regText rs2
  | .sub rd rs1 rs2 => "sub " ++ regText rd ++ ", " ++ regText rs1 ++ ", " ++ regText rs2
  | .mul rd rs1 rs2 => "mul " ++ regText rd ++ ", " ++ regText rs1 ++ ", " ++ regText rs2
  | .div rd rs1 rs2 => "div " ++ regText rd ++ ", " ++ regText rs1 ++ ", " ++ regText rs2
  | .mod rd rs1 rs2 => "mod " ++ regText rd ++ ", " ++ regText rs1 ++ ", " ++ regText rs2
  | .tostr rs1 => "tostr " ++ regText rs1
  | .tobits rs1 => "tobits " ++ regText rs1

end Sys2Proof.Machine
end

