-- ==== Sys2Proof/Safety.lean ====
section
/-! DEFINITION. The terms statements are written in: the invariant of the machine, what "minimal" means, the state a command
leaves when it writes one thing and nothing else, and the frames. -/

namespace Sys2Proof.Machine

/-! ### The invariant -/

/-- A legal content of a value register: val < 2^len and len <= MAX_BITS (10_state.md R21, R22). -/
abbrev Value.wf (p : Params) (x : Value) : Prop := x.val < 2 ^ x.len ∧ x.len ≤ p.maxBits

/-- The canonical form of CBUF's cells: strictly rising indexes, so no index twice. No cell stands for an unwritten byte,
which is what an unlisted index reads as. -/
abbrev Mem.wf (m : Mem) : Prop := m.Pairwise fun a b => a.1 < b.1

/-- Every value register holds a legal content (10_state.md R21, R22, R39). -/
abbrev State.valuesWf (s : State) : Prop := ∀ r : VReg, (s.readV r).wf s.params

/-- CBUF is in canonical form and has CBUF_SIZE bytes (10_state.md R36). -/
abbrev State.cbufWf (s : State) : Prop := Mem.wf s.cbuf ∧ ∀ c ∈ s.cbuf, c.1 < s.params.cbufSize

/-- DONE is 0 while a command is in flight (10_state.md R30, 60_exceptions.md R201, R202). -/
abbrev State.handshakeOk (s : State) : Prop := ¬(s.busy = true ∧ s.done = true)

/-- While the reset input is asserted the BIE holds the reset state (70_reset_and_hazards.md R230). -/
abbrev State.heldInReset (s : State) : Prop := s.resetIn = true → s = s.clear

/-- The invariant every step keeps. -/
abbrev State.Inv (s : State) : Prop :=
  s.params.legal ∧ s.valuesWf ∧ s.cbufWf ∧ s.handshakeOk ∧ s.heldInReset

/-! ### Minimal values -/

/-- Canonical, by the bits and not by bitlen: "either bit_length == 1 ... or bit bit_length - 1 is set" (41_structural.md
R121, 00_scope.md R17), and no bit at or above the length. -/
def Value.Minimal (x : Value) : Prop :=
  x.val < 2 ^ x.len ∧ (x.len = 1 ∨ (1 < x.len ∧ 2 ^ (x.len - 1) ≤ x.val))

/-! ### What a completed command leaves -/

/-- s after a command that raised the error e: only the completion fields are written (60_exceptions.md R203). -/
def failedWith (s : State) (e : ErrCode) : State := { s with err := e, busy := false, done := true }

/-- s after a successful command that wrote x to value register rd, and the completion fields. -/
def valueWritten (s : State) (rd : VReg) (x : Value) : State :=
  { s with v := s.v.set rd.val x, err := .none, busy := false, done := true }

/-- s after a successful command that wrote nothing but the completion fields. -/
def nothingWritten (s : State) : State := { s with err := .none, busy := false, done := true }

/-- s after a successful command that wrote r to RESULT, and the completion fields. -/
def resultWritten (s : State) (r : Word64) : State :=
  { s with result := r, err := .none, busy := false, done := true }

/-- t is s after a successful command that wrote text to CBUF from CBUF[0], its length to CLEN, the completion fields and
nothing else; byte j of the text is given by char (47_conversion.md). -/
def TextWritten (s t : State) (k : Nat) (char : Nat → Byte) : Prop :=
  t = { s with cbuf := t.cbuf, clen := t.clen, err := .none, busy := false, done := true } ∧
  t.clen.toNat = k ∧
  (∀ j, j < k → t.cbufByte j = some (char j)) ∧
  (∀ j, k ≤ j → t.cbufByte j = s.cbufByte j)

/-! ### Frames -/

end Sys2Proof.Machine

namespace Sys2Proof

open Machine

/-- The value register a command writes (30_encoding.md R82): those of formats R3, R2, RDF and RD. -/
def Instr.destination : Instr → Option VReg
  | .newcap rd _ | .ldu rd | .ldstr rd | .copy rd _ | .expand rd _ | .trim rd | .setb rd _ | .setall rd _ => some rd
  | .and rd _ _ | .or rd _ _ | .xor rd _ _ | .not rd _ | .shl rd _ | .shr rd _ => some rd
  | .add rd _ _ | .sub rd _ _ | .mul rd _ _ | .div rd _ _ | .mod rd _ _ => some rd
  | .getb _ | .size _ | .cmp _ _ | .cmpu _ | .tostr _ | .tobits _ => none

/-- The commands that write RESULT (10_state.md R29). -/
def Instr.writesResult : Instr → Bool
  | .getb _ | .size _ | .cmp _ _ | .cmpu _ => true
  | .newcap _ _ | .ldu _ | .ldstr _ | .copy _ _ | .expand _ _ | .trim _ | .setb _ _ | .setall _ _ => false
  | .and _ _ _ | .or _ _ _ | .xor _ _ _ | .not _ _ | .shl _ _ | .shr _ _ => false
  | .add _ _ _ | .sub _ _ _ | .mul _ _ _ | .div _ _ _ | .mod _ _ _ | .tostr _ | .tobits _ => false

/-- How many bytes of CBUF a command stores, from CBUF[0] (47_conversion.md R190, R191): none but for TOSTR and TOBITS. -/
def Instr.storedBytes (i : Instr) (s : State) : Nat :=
  match i with
  | .tostr rs1 => (digits s.argNat (s.readV rs1).val).length
  | .tobits rs1 => (s.readV rs1).len
  | .getb _ | .size _ | .cmp _ _ | .cmpu _ => 0
  | .newcap _ _ | .ldu _ | .ldstr _ | .copy _ _ | .expand _ _ | .trim _ | .setb _ _ | .setall _ _ => 0
  | .and _ _ _ | .or _ _ _ | .xor _ _ _ | .not _ _ | .shl _ _ | .shr _ _ => 0
  | .add _ _ _ | .sub _ _ _ | .mul _ _ _ | .div _ _ _ | .mod _ _ _ => 0

end Sys2Proof

namespace Sys2Proof.Machine

/-- What no command writes: CMD, ARG, CMDLOST, IE, the parameters, the reset input, and the model's record of the outside. -/
def SameHostSide (s t : State) : Prop :=
  t.cmd = s.cmd ∧ t.arg = s.arg ∧ t.cmdLost = s.cmdLost ∧ t.ie = s.ie ∧ t.params = s.params ∧ t.resetIn = s.resetIn ∧
  t.arrivals = s.arrivals ∧ t.response = s.response ∧ t.draws = s.draws

/-- Everything a command in flight reads or writes: the value registers, CMD, ARG, RESULT, CLEN, CBUF, ERR, the parameters. -/
def SameEngineSide (s t : State) : Prop :=
  t.v = s.v ∧ t.cmd = s.cmd ∧ t.arg = s.arg ∧ t.result = s.result ∧ t.clen = s.clen ∧ t.cbuf = s.cbuf ∧ t.err = s.err ∧
  t.params = s.params

/-! ### Events -/

/-- A host access that is no soft reset: every read, and every write but one of CTRL with SRST = 1 (10_state.md R31). -/
def Event.isPlainAccess : Event → Bool
  | .read _ _ => true
  | .write off width d => !(off == 0x20 && width == 8 && d.getLsbD 1)
  | .engine => false
  | .resetLine _ => false

/-- The next event is the engine's turn and es is left after it: the head of the arrival sequence, or the end of it. -/
def EngineNext (s : State) (es : List Event) : Prop :=
  s.resetIn = false ∧ (s.arrivals = .engine :: es ∨ (s.arrivals = [] ∧ es = []))

/-- The next event is e, the reset input is released, and es is left after it. -/
def Arrives (s : State) (e : Event) (es : List Event) : Prop := s.resetIn = false ∧ s.arrivals = e :: es

end Sys2Proof.Machine
end

