-- ==== Sys2Proof/Certificates/Slice0/Obligations.lean ====
section
/-! DEFINITION. The statements for the provers, from the numbered rules of spec/. -/

open Sys2Proof Sys2Proof.Machine

/-! ### Encoding (30_encoding.md) -/

/-- Decoding the encoding of any command gives it back: no bit of an operand is dropped (R80, R82, R86). -/
def Obligations.DecodeOfEncode : Prop := ∀ i : Instr, decode (encode i) = .ok i

/-- Each CMD value has one meaning: a value that decodes is the encoding of what it decodes to (R80, R84, R86). -/
def Obligations.EncodeOfDecode : Prop := ∀ (c : Word64) (i : Instr), decode c = .ok i → encode i = c

/-- A CMD value decodes exactly when none of the four conditions of R84 holds. -/
def Obligations.DecodeAcceptsLegalCommands : Prop :=
  ∀ c : Word64, (∃ i, decode c = .ok i) ↔ legalCommand c = true

/-- "A command is legal exactly when (c & mask) == match" for a row of the opcode table (R86). -/
def Obligations.DecodeAcceptsTableMatches : Prop :=
  ∀ c : Word64, (∃ i, decode c = .ok i) ↔ matchesTable c = true

/-- The fifteen encoding examples of R89. -/
def Obligations.EncodingExamples : Prop :=
  decode 0x0000000000100201#64 = .ok (.newcap 2 true) ∧ decode 0x0000000000000102#64 = .ok (.ldu 1) ∧
  decode 0x0000000000000103#64 = .ok (.ldstr 1) ∧ decode 0x0000000000001404#64 = .ok (.copy 4 1) ∧
  decode 0x0000000000100313#64 = .ok (.setb 3 true) ∧ decode 0x0000000000001012#64 = .ok (.getb 1) ∧
  decode 0x0000000000021020#64 = .ok (.cmp 1 2) ∧ decode 0x0000000000002021#64 = .ok (.cmpu 2) ∧
  decode 0x0000000000055532#64 = .ok (.xor 5 5 5) ∧ decode 0x0000000000001240#64 = .ok (.shl 2 1) ∧
  decode 0x0000000000021350#64 = .ok (.add 3 1 2) ∧ decode 0x0000000000021353#64 = .ok (.div 3 1 2) ∧
  decode 0x00000000000DEF54#64 = .ok (.mod 15 14 13) ∧ decode 0x0000000000003060#64 = .ok (.tostr 3) ∧
  decode 0x0000000000003061#64 = .ok (.tobits 3)

/-! ### The engine's step (60_exceptions.md) -/

/-- When the engine's turn comes, the step is the engine's turn, and if the command in flight decodes to i it is exec of i;
the step takes the turn from the arrival sequence and does nothing else around exec (R202, 20_memory.md R61). That a turn is
an event of a sequence held in State, and comes when the sequence is empty, is the model's choice (log entry 2). -/
def Obligations.StepRunsDecodedCommand : Prop :=
  ∀ (s : State) (es : List Event), EngineNext s es →
    step s = engineTurn { s with arrivals := es } ∧
    ∀ i, s.busy = true → decode s.cmd = .ok i → step s = exec i { s with arrivals := es }

/-- A CMD value illegal by R84 completes with IllegalCommand, code 5, and changes nothing else (R84). -/
def Obligations.IllegalCommandCompletes : Prop :=
  ∀ s : State, s.busy = true → legalCommand s.cmd = false →
    engineTurn s = .next (failedWith s .illegalCommand) ∧ ErrCode.illegalCommand.code = 5

/-- While BUSY = 0 the engine's turn keeps all state: "the engine is idle whenever BUSY = 0" (R215). The
turn as an event is the model's choice (log entry 2). -/
def Obligations.EngineIdleKeepsState : Prop :=
  ∀ (s : State) (es : List Event), EngineNext s es → s.busy = false → step s = .next { s with arrivals := es }

/-! ### Construction (40_construction.md) -/

/-- NEWCAP (R100). -/
def Obligations.NewcapMeaning : Prop :=
  ∀ (rd : VReg) (f : Bool) (s : State),
    (s.arg.toNat ≤ s.params.maxBits → ∃ x : Value, exec (.newcap rd f) s = .next (valueWritten s rd x) ∧
      x.len = s.arg.toNat ∧ x.val = (if f then 2 ^ s.arg.toNat - 1 else 0) ∧
      ∀ i, x.val.testBit i = (f && decide (i < s.arg.toNat))) ∧
    (s.params.maxBits < s.arg.toNat → exec (.newcap rd f) s = .next (failedWith s .overflow)) ∧
    decode (commandWord 0x01 rd 0 0 f) = .ok (.newcap rd f)

/-- LDU (R102): the result is the minimal value of magnitude ARG; it is legal whatever MAX_BITS is. -/
def Obligations.LduMeaning : Prop :=
  ∀ (rd : VReg) (s : State),
    (∃ x : Value, exec (.ldu rd) s = .next (valueWritten s rd x) ∧ x.Minimal ∧ x.val = s.arg.toNat ∧
      (s.params.legal → x.wf s.params)) ∧
    decode (commandWord 0x02 rd 0 0 false) = .ok (.ldu rd)

/-- LDSTR (R103, R205, R216): a string of binary digits gives its value at its length; CLEN > MAX_BITS is Overflow before
any byte is read; the first byte that is no binary digit gives InvalidFormat, or the model's fault if it is unwritten. That
the lower of an unwritten and a bad byte decides is inferred from the loop's order (log entry 6). -/
def Obligations.LdstrMeaning : Prop :=
  ∀ (rd : VReg) (s : State),
    (s.clen.toNat ≤ s.params.maxBits →
      (∀ i, i < s.clen.toNat → s.cbufByte i = some 0x30#8 ∨ s.cbufByte i = some 0x31#8) →
      ∃ x : Value, exec (.ldstr rd) s = .next (valueWritten s rd x) ∧ x.len = s.clen.toNat ∧ x.val < 2 ^ x.len ∧
        ∀ i, i < x.len → x.val.testBit (x.len - 1 - i) = (s.cbufByte i == some 0x31#8)) ∧
    (s.params.maxBits < s.clen.toNat → exec (.ldstr rd) s = .next (failedWith s .overflow)) ∧
    (∀ k c, s.clen.toNat ≤ s.params.maxBits → k < s.clen.toNat →
      (∀ i, i < k → s.cbufByte i = some 0x30#8 ∨ s.cbufByte i = some 0x31#8) →
      s.cbufByte k = some c → c ≠ 0x30#8 → c ≠ 0x31#8 → exec (.ldstr rd) s = .next (failedWith s .invalidFormat)) ∧
    (∀ k, s.clen.toNat ≤ s.params.maxBits → k < s.clen.toNat →
      (∀ i, i < k → s.cbufByte i = some 0x30#8 ∨ s.cbufByte i = some 0x31#8) →
      s.cbufByte k = none → exec (.ldstr rd) s = .fault (.unwrittenChar k)) ∧
    decode (commandWord 0x03 rd 0 0 false) = .ok (.ldstr rd)

/-- COPY (R104): length and magnitude, untrimmed. -/
def Obligations.CopyMeaning : Prop :=
  ∀ (rd rs1 : VReg) (s : State),
    exec (.copy rd rs1) s = .next (valueWritten s rd (s.readV rs1)) ∧
    (rd = rs1 → exec (.copy rd rs1) s = .next (nothingWritten s)) ∧
    decode (commandWord 0x04 rd rs1 0 false) = .ok (.copy rd rs1)

/-! ### Resizing and indexed access (41_structural.md) -/

/-- EXPAND (R120): a no-op when ARG <= len, before the Overflow test; otherwise exactly the positions from the old length
to ARG - 1 become F. -/
def Obligations.ExpandMeaning : Prop :=
  ∀ (rd : VReg) (f : Bool) (s : State),
    (s.arg.toNat ≤ (s.readV rd).len → exec (.expand rd f) s = .next (nothingWritten s)) ∧
    ((s.readV rd).len < s.arg.toNat → s.params.maxBits < s.arg.toNat →
      exec (.expand rd f) s = .next (failedWith s .overflow)) ∧
    ((s.readV rd).len < s.arg.toNat → s.arg.toNat ≤ s.params.maxBits →
      ∃ y : Value, exec (.expand rd f) s = .next (valueWritten s rd y) ∧ y.len = s.arg.toNat ∧
        y.val = (s.readV rd).val + (if f then (2 ^ s.arg.toNat - 1) - (2 ^ (s.readV rd).len - 1) else 0) ∧
        ((s.readV rd).val < 2 ^ (s.readV rd).len → ∀ i, y.val.testBit i =
          if i < (s.readV rd).len then (s.readV rd).val.testBit i else f && decide (i < s.arg.toNat))) ∧
    decode (commandWord 0x10 rd 0 0 f) = .ok (.expand rd f)

/-- TRIM (R121): the minimal value of the same magnitude; idempotent. -/
def Obligations.TrimMeaning : Prop :=
  ∀ (rd : VReg) (s : State),
    (∃ y : Value, exec (.trim rd) s = .next (valueWritten s rd y) ∧ y.Minimal ∧ y.val = (s.readV rd).val ∧
      exec (.trim rd) (valueWritten s rd y) = .next (valueWritten s rd y)) ∧
    decode (commandWord 0x11 rd 0 0 false) = .ok (.trim rd)

/-- GETB (R122): bit ARG, or 0 at and above the length. -/
def Obligations.GetbMeaning : Prop :=
  ∀ (rs1 : VReg) (s : State),
    exec (.getb rs1) s = .next (resultWritten s
      (if s.arg.toNat < (s.readV rs1).len ∧ (s.readV rs1).val.testBit s.arg.toNat = true then 1#64 else 0#64)) ∧
    decode (commandWord 0x12 0 rs1 0 false) = .ok (.getb rs1)

/-- SETB (R123): bit ARG becomes F, no other bit and no length changes; a no-op at and above the length. -/
def Obligations.SetbMeaning : Prop :=
  ∀ (rd : VReg) (f : Bool) (s : State),
    ((s.readV rd).len ≤ s.arg.toNat → exec (.setb rd f) s = .next (nothingWritten s)) ∧
    (s.arg.toNat < (s.readV rd).len → ∃ y : Value, exec (.setb rd f) s = .next (valueWritten s rd y) ∧
      y.len = (s.readV rd).len ∧
      y.val = (if f then (s.readV rd).val ||| 2 ^ s.arg.toNat
        else (s.readV rd).val &&& (2 ^ (s.readV rd).len - 1 - 2 ^ s.arg.toNat)) ∧
      ((s.readV rd).val < 2 ^ (s.readV rd).len → ∀ i, y.val.testBit i =
        if i = s.arg.toNat then f else (s.readV rd).val.testBit i)) ∧
    decode (commandWord 0x13 rd 0 0 f) = .ok (.setb rd f)

/-- SETALL (R124): every position below the length becomes F; the length is unchanged. -/
def Obligations.SetallMeaning : Prop :=
  ∀ (rd : VReg) (f : Bool) (s : State),
    (∃ y : Value, exec (.setall rd f) s = .next (valueWritten s rd y) ∧ y.len = (s.readV rd).len ∧
      y.val = (if f then 2 ^ (s.readV rd).len - 1 else 0) ∧
      ∀ i, y.val.testBit i = (f && decide (i < (s.readV rd).len))) ∧
    decode (commandWord 0x14 rd 0 0 f) = .ok (.setall rd f)

/-- SIZE (R125): the stored length, which fits RESULT. -/
def Obligations.SizeMeaning : Prop :=
  ∀ (rs1 : VReg) (s : State), s.params.legal → (s.readV rs1).wf s.params →
    (∃ r : Word64, exec (.size rs1) s = .next (resultWritten s r) ∧ r.toNat = (s.readV rs1).len) ∧
    decode (commandWord 0x15 0 rs1 0 false) = .ok (.size rs1)

/-! ### Comparison (42_compare.md) -/

/-- CMP and CMPU (R140, R141, R142): 0 equal, 1 less, 2 greater, by magnitude alone. -/
def Obligations.CompareMeaning : Prop :=
  ∀ (rs1 rs2 : VReg) (s : State),
    (∃ r : Word64, exec (.cmp rs1 rs2) s = .next (resultWritten s r) ∧
      (r = 0#64 ↔ (s.readV rs1).val = (s.readV rs2).val) ∧ (r = 1#64 ↔ (s.readV rs1).val < (s.readV rs2).val) ∧
      (r = 2#64 ↔ (s.readV rs2).val < (s.readV rs1).val)) ∧
    (∃ r : Word64, exec (.cmpu rs1) s = .next (resultWritten s r) ∧
      (r = 0#64 ↔ (s.readV rs1).val = s.arg.toNat) ∧ (r = 1#64 ↔ (s.readV rs1).val < s.arg.toNat) ∧
      (r = 2#64 ↔ s.arg.toNat < (s.readV rs1).val)) ∧
    decode (commandWord 0x20 0 rs1 rs2 false) = .ok (.cmp rs1 rs2) ∧
    decode (commandWord 0x21 0 rs1 0 false) = .ok (.cmpu rs1)

/-! ### Bitwise logic (43_bitwise.md) -/

/-- AND, OR, XOR (R151 to R153): width max(la, lb), bit by bit, untrimmed, never an error. -/
def Obligations.BitwiseMeaning : Prop :=
  ∀ (rd rs1 rs2 : VReg) (s : State) (i : Instr) (op : Bool → Bool → Bool) (code : Nat),
    (i, op, code) ∈ [(Instr.and rd rs1 rs2, Bool.and, 0x30), (Instr.or rd rs1 rs2, Bool.or, 0x31),
      (Instr.xor rd rs1 rs2, Bool.xor, 0x32)] →
    (∃ y : Value, exec i s = .next (valueWritten s rd y) ∧ y.len = max (s.readV rs1).len (s.readV rs2).len ∧
      ∀ k, y.val.testBit k = op ((s.readV rs1).val.testBit k) ((s.readV rs2).val.testBit k)) ∧
    decode (commandWord code rd rs1 rs2 false) = .ok i

/-- NOT (R154): complement of the positions below the length; applied twice it gives the operand back. -/
def Obligations.NotMeaning : Prop :=
  ∀ (rd rs1 : VReg) (s : State), (s.readV rs1).val < 2 ^ (s.readV rs1).len →
    (∃ y : Value, exec (.not rd rs1) s = .next (valueWritten s rd y) ∧ y.len = (s.readV rs1).len ∧
      (∀ k, y.val.testBit k = (decide (k < (s.readV rs1).len) && !(s.readV rs1).val.testBit k)) ∧
      ∀ q, exec (.not q rd) (valueWritten s rd y) = .next (valueWritten (valueWritten s rd y) q (s.readV rs1))) ∧
    decode (commandWord 0x33 rd rs1 0 false) = .ok (.not rd rs1)

/-! ### Shifts (44_shift.md) -/

/-- SHL (R160): la + ARG without wrap; Overflow above MAX_BITS. -/
def Obligations.ShlMeaning : Prop :=
  ∀ (rd rs1 : VReg) (s : State),
    ((s.readV rs1).len + s.arg.toNat ≤ s.params.maxBits → ∃ y : Value,
      exec (.shl rd rs1) s = .next (valueWritten s rd y) ∧ y.len = (s.readV rs1).len + s.arg.toNat ∧
      y.val = (s.readV rs1).val * 2 ^ s.arg.toNat) ∧
    (s.params.maxBits < (s.readV rs1).len + s.arg.toNat → exec (.shl rd rs1) s = .next (failedWith s .overflow)) ∧
    decode (commandWord 0x40 rd rs1 0 false) = .ok (.shl rd rs1)

/-- SHR (R161): ZERO1 from the length up; otherwise the width la - ARG and the bits ARG places down. -/
def Obligations.ShrMeaning : Prop :=
  ∀ (rd rs1 : VReg) (s : State),
    ((s.readV rs1).len ≤ s.arg.toNat → exec (.shr rd rs1) s = .next (valueWritten s rd { len := 1, val := 0 })) ∧
    (s.arg.toNat < (s.readV rs1).len → ∃ y : Value, exec (.shr rd rs1) s = .next (valueWritten s rd y) ∧
      y.len = (s.readV rs1).len - s.arg.toNat ∧ y.val = (s.readV rs1).val / 2 ^ s.arg.toNat ∧
      ∀ k, y.val.testBit k = (s.readV rs1).val.testBit (k + s.arg.toNat)) ∧
    decode (commandWord 0x41 rd rs1 0 false) = .ok (.shr rd rs1)

/-- Shifting left and then right by the same count gives `<la, va>` when la >= 1, and ZERO1 when la = 0 (R162). -/
def Obligations.ShiftRoundTrip : Prop :=
  ∀ (rd rq rs1 : VReg) (s : State), (s.readV rs1).val < 2 ^ (s.readV rs1).len →
    (s.readV rs1).len + s.arg.toNat ≤ s.params.maxBits →
    ∃ t u : State, exec (.shl rd rs1) s = .next t ∧ exec (.shr rq rd) t = .next u ∧
      u.readV rq = (if 1 ≤ (s.readV rs1).len then s.readV rs1 else { len := 1, val := 0 }) ∧
      (u.readV rq).val = (s.readV rs1).val

/-! ### Addition and subtraction (45_addsub.md) -/

/-- ADD (R170): the exact sum, trimmed; Overflow is tested on the stored lengths. -/
def Obligations.AddMeaning : Prop :=
  ∀ (rd rs1 rs2 : VReg) (s : State),
    (max (s.readV rs1).len (s.readV rs2).len + 1 ≤ s.params.maxBits → ∃ y : Value,
      exec (.add rd rs1 rs2) s = .next (valueWritten s rd y) ∧ y.Minimal ∧
      y.val = (s.readV rs1).val + (s.readV rs2).val) ∧
    (s.params.maxBits < max (s.readV rs1).len (s.readV rs2).len + 1 →
      exec (.add rd rs1 rs2) s = .next (failedWith s .overflow)) ∧
    decode (commandWord 0x50 rd rs1 rs2 false) = .ok (.add rd rs1 rs2)

/-- SUB (R171): the difference, trimmed; ZERO1 when a < b; never an error. -/
def Obligations.SubMeaning : Prop :=
  ∀ (rd rs1 rs2 : VReg) (s : State),
    ((s.readV rs1).val < (s.readV rs2).val →
      exec (.sub rd rs1 rs2) s = .next (valueWritten s rd { len := 1, val := 0 })) ∧
    ((s.readV rs2).val ≤ (s.readV rs1).val → ∃ y : Value,
      exec (.sub rd rs1 rs2) s = .next (valueWritten s rd y) ∧ y.Minimal ∧
      y.val + (s.readV rs2).val = (s.readV rs1).val) ∧
    decode (commandWord 0x51 rd rs1 rs2 false) = .ok (.sub rd rs1 rs2)

/-- The laws of ADD and SUB when ADD raises no error (R172): the sum, commutativity, (a + b) - b = a, the saturated
difference, and every result canonical. -/
def Obligations.AddSubLaws : Prop :=
  ∀ (rd rq rs1 rs2 : VReg) (s : State), max (s.readV rs1).len (s.readV rs2).len + 1 ≤ s.params.maxBits →
    exec (.add rd rs1 rs2) s = exec (.add rd rs2 rs1) s ∧
    (∃ t : State, exec (.add rd rs1 rs2) s = .next t ∧ (t.readV rd).Minimal ∧
      (t.readV rd).val = (s.readV rs1).val + (s.readV rs2).val ∧
      (rd ≠ rs2 → ∃ u : State, exec (.sub rq rd rs2) t = .next u ∧ (u.readV rq).Minimal ∧
        (u.readV rq).val = (s.readV rs1).val)) ∧
    (∃ u : State, exec (.sub rq rs1 rs2) s = .next u ∧ (u.readV rq).Minimal ∧
      ((u.readV rq).val : Int) = max ((s.readV rs1).val - (s.readV rs2).val : Int) 0)

/-! ### Multiplication and division (46_muldiv.md) -/

/-- MUL (R180): the zero path first, then Overflow on the stored lengths, then the exact product, trimmed. -/
def Obligations.MulMeaning : Prop :=
  ∀ (rd rs1 rs2 : VReg) (s : State),
    ((s.readV rs1).val = 0 ∨ (s.readV rs2).val = 0 →
      exec (.mul rd rs1 rs2) s = .next (valueWritten s rd { len := 1, val := 0 })) ∧
    ((s.readV rs1).val ≠ 0 → (s.readV rs2).val ≠ 0 → s.params.maxBits < (s.readV rs1).len + (s.readV rs2).len →
      exec (.mul rd rs1 rs2) s = .next (failedWith s .overflow)) ∧
    ((s.readV rs1).val ≠ 0 → (s.readV rs2).val ≠ 0 → (s.readV rs1).len + (s.readV rs2).len ≤ s.params.maxBits →
      ∃ y : Value, exec (.mul rd rs1 rs2) s = .next (valueWritten s rd y) ∧ y.Minimal ∧
        y.val = (s.readV rs1).val * (s.readV rs2).val) ∧
    decode (commandWord 0x52 rd rs1 rs2 false) = .ok (.mul rd rs1 rs2)

/-- DIV and MOD (R181, R182, R183): DivisionByZero for every divisor of value 0, RD unchanged; otherwise the quotient and the
remainder, trimmed. -/
def Obligations.DivModMeaning : Prop :=
  ∀ (rd rs1 rs2 : VReg) (s : State),
    ((s.readV rs2).val = 0 → exec (.div rd rs1 rs2) s = .next (failedWith s .divisionByZero) ∧
      exec (.mod rd rs1 rs2) s = .next (failedWith s .divisionByZero)) ∧
    ((s.readV rs2).val ≠ 0 → ∃ q r : Value, exec (.div rd rs1 rs2) s = .next (valueWritten s rd q) ∧
      exec (.mod rd rs1 rs2) s = .next (valueWritten s rd r) ∧ q.Minimal ∧ r.Minimal ∧
      q.val = (s.readV rs1).val / (s.readV rs2).val ∧ r.val = (s.readV rs1).val % (s.readV rs2).val) ∧
    decode (commandWord 0x53 rd rs1 rs2 false) = .ok (.div rd rs1 rs2) ∧
    decode (commandWord 0x54 rd rs1 rs2 false) = .ok (.mod rd rs1 rs2)

/-- The division laws, which the spec derives (46_muldiv.md "These laws fix the result by value"): with a divisor that is not
0, `DIV(a, b).val * vb + MOD(a, b).val = va` and `MOD(a, b).val < vb`, and nothing else satisfies them. -/
def Obligations.DivisionLaws : Prop :=
  ∀ (rq rr rs1 rs2 : VReg) (s : State), (s.readV rs2).val ≠ 0 →
    ∃ t u : State, exec (.div rq rs1 rs2) s = .next t ∧ exec (.mod rr rs1 rs2) s = .next u ∧
      (t.readV rq).val * (s.readV rs2).val + (u.readV rr).val = (s.readV rs1).val ∧
      (u.readV rr).val < (s.readV rs2).val ∧
      ∀ q r : Nat, q * (s.readV rs2).val + r = (s.readV rs1).val → r < (s.readV rs2).val →
        q = (t.readV rq).val ∧ r = (u.readV rr).val

/-! ### Base conversion (47_conversion.md) -/

/-- TOSTR (R190): the base-b digits of the value, most significant first, no leading zero, "0" for 0, as characters in CBUF
from CBUF[0], their number in CLEN; InvalidArgument for a base outside 2 to 36. -/
def Obligations.TostrMeaning : Prop :=
  ∀ (rs1 : VReg) (s : State),
    (s.params.legal → (s.readV rs1).wf s.params → 2 ≤ s.arg.toNat → s.arg.toNat ≤ 36 →
      ∃ (t : State) (ds : List Nat), exec (.tostr rs1) s = .next t ∧ (∀ d ∈ ds, d < s.arg.toNat) ∧
        ((s.readV rs1).val = 0 → ds = [0]) ∧ ((s.readV rs1).val ≠ 0 → ds.head? ≠ some 0) ∧
        ds.foldl (fun a d => a * s.arg.toNat + d) 0 = (s.readV rs1).val ∧ ds.length ≤ s.params.cbufSize ∧
        TextWritten s t ds.length (fun j =>
          if ds.getD j 0 ≤ 9 then BitVec.ofNat 8 (0x30 + ds.getD j 0) else BitVec.ofNat 8 (0x61 + (ds.getD j 0 - 10)))) ∧
    (s.arg.toNat < 2 ∨ 36 < s.arg.toNat → exec (.tostr rs1) s = .next (failedWith s .invalidArgument)) ∧
    decode (commandWord 0x60 0 rs1 0 false) = .ok (.tostr rs1)

/-- TOBITS (R191): one character for each stored position, position len - 1 first, from CBUF[0]; the length in CLEN. -/
def Obligations.TobitsMeaning : Prop :=
  ∀ (rs1 : VReg) (s : State), s.params.legal → (s.readV rs1).wf s.params →
    (∃ t : State, exec (.tobits rs1) s = .next t ∧ (s.readV rs1).len ≤ s.params.cbufSize ∧
      TextWritten s t (s.readV rs1).len (fun j =>
        if (s.readV rs1).val.testBit ((s.readV rs1).len - 1 - j) then 0x31#8 else 0x30#8)) ∧
    decode (commandWord 0x61 0 rs1 0 false) = .ok (.tobits rs1)

/-- TOBITS followed at once by LDSTR gives the value back, in length and magnitude, and cannot fail (R192). -/
def Obligations.BitStringRoundTrip : Prop :=
  ∀ (rd rs1 : VReg) (s : State), s.params.legal → (s.readV rs1).wf s.params →
    ∃ t u : State, exec (.tobits rs1) s = .next t ∧ exec (.ldstr rd) t = .next u ∧
      u.err = .none ∧ u.readV rd = s.readV rs1

/-! ### Frames -/

/-- The commands that name a destination (NEWCAP, LDU, LDSTR, COPY, EXPAND, TRIM, SETB, SETALL, AND, OR, XOR, NOT, SHL, SHR,
ADD, SUB, MUL, DIV, MOD) change no other value register, not RESULT, not CLEN, no byte of CBUF and nothing of the host side,
whether they succeed or raise an error. -/
def Obligations.ValueCommandFrame : Prop :=
  ∀ (i : Instr) (rd : VReg) (s t : State), i.destination = some rd → exec i s = .next t →
    (∀ q, q ≠ rd → t.readV q = s.readV q) ∧ t.result = s.result ∧ t.clen = s.clen ∧
    (∀ j, t.cbufByte j = s.cbufByte j) ∧ SameHostSide s t

/-- GETB, SIZE, CMP and CMPU change no value register, not CLEN, no byte of CBUF and nothing of the host side. -/
def Obligations.ResultCommandFrame : Prop :=
  ∀ (i : Instr) (s t : State), i.writesResult = true → exec i s = .next t →
    (∀ q, t.readV q = s.readV q) ∧ t.clen = s.clen ∧ (∀ j, t.cbufByte j = s.cbufByte j) ∧ SameHostSide s t

/-- TOSTR and TOBITS change no value register, not RESULT, nothing of the host side, and no byte of CBUF but those their
text is stored to: CBUF[0] up to the number of digits, or of stored positions. -/
def Obligations.TextCommandFrame : Prop :=
  ∀ (rs1 : VReg) (i : Instr) (s t : State), i = .tostr rs1 ∨ i = .tobits rs1 → exec i s = .next t →
    (∀ q, t.readV q = s.readV q) ∧ t.result = s.result ∧ SameHostSide s t ∧
    ∀ j, i.storedBytes s ≤ j → t.cbufByte j = s.cbufByte j

/-! ### Completion and errors (60_exceptions.md) -/

/-- Errors are all-or-nothing: a command, illegal or not, that completes with an error writes nothing but the completion
fields (R203). -/
def Obligations.ErrorsAreAllOrNothing : Prop :=
  ∀ s t : State, s.busy = true → engineTurn s = .next t → t.err ≠ .none →
    t = { s with err := t.err, busy := false, done := true }

/-- Every decoded command completes (BUSY <- 0, DONE <- 1), but for an LDSTR over an unwritten byte below CLEN, which is a
fault of the model (R202, R216): no other command ever stops. -/
def Obligations.EveryCommandCompletes : Prop :=
  ∀ (i : Instr) (s : State),
    (∃ t, exec i s = .next t ∧ t.busy = false ∧ t.done = true) ∨
    (∃ rd j, i = .ldstr rd ∧ j < s.clen.toNat ∧ s.cbufByte j = none ∧ exec i s = .fault (.unwrittenChar j))

/-- Only GETB, SIZE, CMP and CMPU write RESULT, and only when they complete without error (10_state.md R29). -/
def Obligations.ResultWriters : Prop :=
  ∀ (i : Instr) (s t : State), exec i s = .next t → t.result ≠ s.result → i.writesResult = true ∧ t.err = .none

/-! ### Host accesses (10_state.md, 20_memory.md, 70_reset_and_hazards.md) -/

/-- A write to CMD: accepted while BUSY = 0, CMD <- c, BUSY <- 1, DONE <- 0, ERR kept (60_exceptions.md R201); dropped with
CMDLOST <- 1 while BUSY = 1 (70_reset_and_hazards.md R240).
The model's choices in it: log entries 2, 3. -/
def Obligations.CmdWrite : Prop :=
  ∀ (s : State) (es : List Event) (c : Word64), Arrives s (.write 0x00 8 c) es →
    (s.busy = false → step s = .next { s with
      arrivals := es, cmd := c, busy := true, done := false, response := some ⟨false, none⟩ }) ∧
    (s.busy = true → step s = .next { s with arrivals := es, cmdLost := true, response := some ⟨false, none⟩ })

/-- A write to ARG or CLEN: stored while BUSY = 0 (10_state.md R28, R32); dropped silently while BUSY = 1 (R241).
The model's choices in it: log entries 2, 3. -/
def Obligations.OperandWrites : Prop :=
  ∀ (s : State) (es : List Event) (d : Word64),
    (Arrives s (.write 0x08 8 d) es → step s = .next { s with
      arrivals := es, arg := if s.busy then s.arg else d, response := some ⟨false, none⟩ }) ∧
    (Arrives s (.write 0x28 8 d) es → step s = .next { s with
      arrivals := es, clen := if s.busy then s.clen else d, response := some ⟨false, none⟩ })

/-- A well-formed write of w bytes to CBUF: little-endian into CBUF[j .. j+w-1] and nowhere else while BUSY = 0
(20_memory.md R53); dropped while BUSY = 1 (70_reset_and_hazards.md R241).
The model's choices in it: log entries 2, 3, 13. -/
def Obligations.CbufWrite : Prop :=
  ∀ (s : State) (es : List Event) (j w : Nat) (d : Word64), Arrives s (.write (0x1000 + j) w d) es →
    w = 1 ∨ w = 2 ∨ w = 4 ∨ w = 8 → j % w = 0 → j + w ≤ s.params.cbufSize →
    (s.busy = false → ∃ t, step s = .next t ∧
      t = { s with arrivals := es, cbuf := t.cbuf, response := some ⟨false, none⟩ } ∧
      (∀ i, i < w → t.cbufByte (j + i) = some (d.extractLsb' (8 * i) 8)) ∧
      (∀ k, k < j ∨ j + w ≤ k → t.cbufByte k = s.cbufByte k)) ∧
    (s.busy = true → step s = .next { s with arrivals := es, response := some ⟨false, none⟩ })

/-- A well-formed read of w bytes of CBUF while BUSY = 0: the little-endian number of the bytes (20_memory.md R53), or, if it
covers an unwritten byte, the model's fault (60_exceptions.md R216). R216 gives the fault no index: that it names the lowest
unwritten one is the model's choice (log entry 6). The model's other choices in it: log entries 2, 3, 13. -/
def Obligations.CbufRead : Prop :=
  ∀ (s : State) (es : List Event) (j w : Nat), Arrives s (.read (0x1000 + j) w) es →
    w = 1 ∨ w = 2 ∨ w = 4 ∨ w = 8 → j % w = 0 → j + w ≤ s.params.cbufSize → s.busy = false →
    (∀ b : Nat → Byte, (∀ i, i < w → s.cbufByte (j + i) = some (b i)) →
      ∃ d : Word64, step s = .next { s with arrivals := es, response := some ⟨false, some d⟩ } ∧
        (∀ i, i < w → d.extractLsb' (8 * i) 8 = b i) ∧ d.toNat < 2 ^ (8 * w)) ∧
    (∀ k, k < w → s.cbufByte (j + k) = none → (∀ i, i < k → s.cbufByte (j + i) ≠ none) →
      step s = .fault (.unwrittenRead (j + k)))

/-- Reads of RESULT, CLEN and CBUF while BUSY = 1 answer some value and change nothing but the count of values drawn
(70_reset_and_hazards.md R242); this holds whatever the free value is.
The model's choices in it: log entries 2, 3, 4, 12. -/
def Obligations.ReadsWhileBusy : Prop :=
  ∀ (s : State) (es : List Event) (off w : Nat), Arrives s (.read off w) es → s.busy = true →
    (off = 0x10 ∧ w = 8) ∨ (off = 0x28 ∧ w = 8) ∨
      ((w = 1 ∨ w = 2 ∨ w = 4 ∨ w = 8) ∧ off % w = 0 ∧ 0x1000 ≤ off ∧ off + w ≤ 0x1000 + s.params.cbufSize) →
    ∃ d : Word64, step s = .next { s with
      arrivals := es, draws := s.draws + 1, response := some ⟨false, some d⟩ } ∧ d.toNat < 2 ^ (8 * w)

/-- The registers as read (20_memory.md R52): CMD, ARG, STATUS, CTRL, ID, MAXBITS and CBUFSZ at any time, RESULT and CLEN
while BUSY = 0; ID is 0x0000_0001_4249_4E54 (10_state.md R33, R34, R35).
The model's choices in it: log entries 1, 2, 3, 9. -/
def Obligations.RegisterReads : Prop :=
  ∀ (s : State) (es : List Event) (off : Nat) (d : Word64), Arrives s (.read off 8) es →
    (off, d) ∈ [(0x00, s.cmd), (0x08, s.arg), (0x18, s.statusWord), (0x20, s.ctrlWord), (0x30, 0x0000000142494E54#64),
      (0x38, BitVec.ofNat 64 s.params.maxBits), (0x40, BitVec.ofNat 64 s.params.cbufSize)] ∨
      (s.busy = false ∧ (off, d) ∈ [(0x10, s.result), (0x28, s.clen)]) →
    step s = .next { s with arrivals := es, response := some ⟨false, some d⟩ }

/-- A reserved offset reads 0 and ignores a write; RESULT, ID, MAXBITS and CBUFSZ ignore writes (20_memory.md R55).
The model's choices in it: log entries 2, 3. -/
def Obligations.ReservedOffsets : Prop :=
  ∀ (s : State) (es : List Event) (off : Nat) (d : Word64), off < 0x1000 → off % 8 = 0 →
    (0x48 ≤ off → Arrives s (.read off 8) es →
      step s = .next { s with arrivals := es, response := some ⟨false, some 0#64⟩ }) ∧
    (0x48 ≤ off ∨ off = 0x10 ∨ off = 0x30 ∨ off = 0x38 ∨ off = 0x40 → Arrives s (.write off 8 d) es →
      step s = .next { s with arrivals := es, response := some ⟨false, none⟩ })

/-- STATUS (10_state.md R30): its bits, the codes of ERR (60_exceptions.md R200), and what a write to it does: DONE and
CMDLOST are cleared where the written bit is 1, and nothing else changes.
The model's choices in it: log entries 2, 3. -/
def Obligations.StatusRegister : Prop :=
  ∀ (s : State) (es : List Event) (d : Word64),
    (∀ k, s.statusWord.getLsbD k =
      if k = 0 then s.busy else if k = 1 then s.done else if k = 2 then s.cmdLost
      else if 8 ≤ k ∧ k ≤ 11 then s.err.code.testBit (k - 8) else false) ∧
    (Arrives s (.write 0x18 8 d) es → step s = .next { s with
      arrivals := es, done := s.done && !d.getLsbD 1, cmdLost := s.cmdLost && !d.getLsbD 2,
      response := some ⟨false, none⟩ }) ∧
    [ErrCode.none, .invalidFormat, .invalidArgument, .divisionByZero, .overflow, .illegalCommand].map ErrCode.code =
      [0, 1, 2, 3, 4, 5]

/-- CTRL (10_state.md R31): IE in bit 0 and zeros as read; a write with SRST = 0 only updates IE, at any time; a write with
SRST = 1 is the whole reset, whatever the other bits and even while BUSY = 1 (70_reset_and_hazards.md R231).
The model's choices in it: log entries 2, 3, 10. -/
def Obligations.ControlRegister : Prop :=
  ∀ (s : State) (es : List Event) (d : Word64),
    (∀ k, s.ctrlWord.getLsbD k = (decide (k = 0) && s.ie)) ∧
    (Arrives s (.write 0x20 8 d) es → d.getLsbD 1 = false → step s = .next { s with
      arrivals := es, ie := d.getLsbD 0, response := some ⟨false, none⟩ }) ∧
    (Arrives s (.write 0x20 8 d) es → d.getLsbD 1 = true → step s = .next
      { params := s.params, v := Vector.replicate 16 ⟨0, 0⟩, cmd := 0, arg := 0, result := 0, busy := false, done := false,
        cmdLost := false, err := .none, ie := false, clen := 0, cbuf := [], resetIn := false, arrivals := es,
        response := some ⟨false, none⟩, draws := s.draws })

/-- Bus errors (20_memory.md R56): an access of another width, misaligned, not 8 bytes wide below 0x1000, or with a byte
beyond the window changes no state, and a read returns data 0.
The model's choices in it: log entries 2, 3. -/
def Obligations.BusErrors : Prop :=
  ∀ (s : State) (es : List Event) (off w : Nat) (d : Word64),
    ¬((w = 1 ∨ w = 2 ∨ w = 4 ∨ w = 8) ∧ off % w = 0 ∧ (off < 0x1000 → w = 8) ∧
      (0x1000 ≤ off → off + w ≤ 0x1000 + s.params.cbufSize)) →
    (Arrives s (.read off w) es → step s = .next { s with arrivals := es, response := some ⟨true, some 0#64⟩ }) ∧
    (Arrives s (.write off w d) es → step s = .next { s with arrivals := es, response := some ⟨true, none⟩ })

/-- "All reads are idempotent: reading any offset any number of times changes no state" (20_memory.md R59): only the answer
and the count of free values differ, and the count only while BUSY = 1.
The model's choices in it: log entries 2, 3, 4. -/
def Obligations.ReadsChangeNothing : Prop :=
  ∀ (s t : State) (es : List Event) (off w : Nat), Arrives s (.read off w) es → step s = .next t →
    t = { s with arrivals := es, response := t.response, draws := t.draws } ∧ (s.busy = false → t.draws = s.draws)

/-- The interrupt output (60_exceptions.md R206): high exactly while IE = 1 and DONE = 1; after a completion it is IE;
a write of 1 to DONE, an issue, IE <- 0 and a reset make it low; it rises only by a completion, or by enabling it while DONE = 1.
The model's choices in it: log entries 2, 8. -/
def Obligations.InterruptLevel : Prop :=
  ∀ (s t : State), (s.irq = true ↔ s.ie = true ∧ s.done = true) ∧
    (∀ i, exec i s = .next t → t.irq = s.ie) ∧
    (∀ d es, step s = .next t → Arrives s (.write 0x18 8 d) es → d.getLsbD 1 = true → t.irq = false) ∧
    (∀ c es, step s = .next t → Arrives s (.write 0x00 8 c) es → s.busy = false → t.irq = false) ∧
    (∀ d es, step s = .next t → Arrives s (.write 0x20 8 d) es → d.getLsbD 0 = false ∨ d.getLsbD 1 = true →
      t.irq = false) ∧
    (∀ es, step s = .next t → Arrives s (.resetLine true) es → t.irq = false) ∧
    (s.irq = false → step s = .next t → t.irq = true →
      (s.busy = true ∧ ∃ es, EngineNext s es) ∨ (s.done = true ∧ ∃ es d, Arrives s (.write 0x20 8 d) es))

/-! ### Reset (70_reset_and_hazards.md) -/

/-- The reset values: every value register EMPTY (10_state.md R24), and the other registers as R230 lists them. -/
def Obligations.ResetState : Prop :=
  (∀ r, State.reset.readV r = ⟨0, 0⟩) ∧ State.reset.cmd = 0 ∧ State.reset.arg = 0 ∧ State.reset.result = 0 ∧
  State.reset.busy = false ∧ State.reset.done = false ∧ State.reset.cmdLost = false ∧ State.reset.err = .none ∧
  State.reset.ie = false ∧ State.reset.clen = 0 ∧ (∀ j, State.reset.cbufByte j = none) ∧ State.reset.irq = false

/-- Hardware reset (R230): asserting the input abandons a command in flight and leaves the reset state; while it is asserted,
every step that answers a next state, its release included, leaves the reset state, whatever the event.
The model's choices in it: log entries 2, 3, 8, 10. -/
def Obligations.HardwareReset : Prop :=
  ∀ (s t : State) (es : List Event),
    (Arrives s (.resetLine true) es → step s = .next
      { params := s.params, v := Vector.replicate 16 ⟨0, 0⟩, cmd := 0, arg := 0, result := 0, busy := false, done := false,
        cmdLost := false, err := .none, ie := false, clen := 0, cbuf := [], resetIn := true, arrivals := es,
        response := s.response, draws := s.draws }) ∧
    (s.resetIn = true → step s = .next t → t =
      { params := s.params, v := Vector.replicate 16 ⟨0, 0⟩, cmd := 0, arg := 0, result := 0, busy := false, done := false,
        cmdLost := false, err := .none, ie := false, clen := 0, cbuf := [], resetIn := t.resetIn, arrivals := t.arrivals,
        response := t.response, draws := s.draws })

/-! ### The whole machine -/

/-- The invariant holds right after reset, for every legal configuration.
The model's choices in it: log entries 1, 8, 14. -/
def Obligations.ResetMeetsInvariant : Prop := State.reset.Inv ∧ ∀ p : Params, p.legal → (State.resetOf p).Inv

/-- Every step keeps the invariant: legal parameters, every value register `<len, val>` with val < 2^len and
len <= MAX_BITS (10_state.md R21, R22), CBUF in canonical form inside its CBUF_SIZE bytes, never BUSY and DONE together,
and the reset state while the reset input is asserted.
The model's choices in it: log entries 1, 2, 8, 14. -/
def Obligations.StepKeepsInvariant : Prop := ∀ s t : State, s.Inv → step s = .next t → t.Inv

/-- No step changes MAX_BITS, CBUF_SIZE (00_scope.md R8, R9; constants by 10_state.md R34, R35) or BIE_BASE (20_memory.md R50).
That they are fields of State which no step changes is the model's choice (log entry 1). -/
def Obligations.ParametersNeverChange : Prop := ∀ s t : State, step s = .next t → t.params = s.params

/-- A value register changes only by the completion of a command in flight or by a reset: the host cannot write one directly
(10_state.md R20, 20_memory.md R51).
The model's choices in it: log entries 2, 8. -/
def Obligations.ValuesChangeOnlyByCompletionOrReset : Prop :=
  ∀ (s t : State) (r : VReg), step s = .next t → t.readV r ≠ s.readV r →
    (s.busy = true ∧ ∃ es, EngineNext s es) ∨ s.resetIn = true ∨
    (∃ es, Arrives s (.resetLine true) es) ∨
    (∃ es d, Arrives s (.write 0x20 8 d) es ∧ d.getLsbD 1 = true)

/-- "While BUSY = 1, the engine's inputs cannot change" and a command in flight completes (10_state.md R37, 60_exceptions.md
R202, 70_reset_and_hazards.md R245): whatever plain accesses the host makes while a command is in flight, none of them stops
the machine, all of them leave everything the command reads or writes as it was at issue, and the step after the last of
them completes the command on exactly that.
The model's choices in it: log entries 2, 3, 4, 12. -/
def Obligations.CommandInFlightIsFrozenAndCompletes : Prop :=
  ∀ (s : State) (accesses rest : List Event) (i : Instr), s.resetIn = false → s.busy = true →
    decode s.cmd = .ok i → (∀ e ∈ accesses, e.isPlainAccess = true) →
    s.arrivals = accesses ++ rest → (rest = [] ∨ rest.head? = some .engine) →
    ∃ t : State, core.run accesses.length s = .next t ∧ SameEngineSide s t ∧ t.busy = true ∧ t.resetIn = false ∧
      t.arrivals = rest ∧ step t = exec i { t with arrivals := rest.tail }

/-- The pseudo-instruction `ldu vD, n` (30_encoding.md R88) does what its name says, on an idle engine: its accesses leave
the minimal value of magnitude n in vD, ERR = 0, every other value register as it was, and STATUS as the last answer.
The model's choices in it: log entries 2, 3, 11. -/
def Obligations.LoadPseudoInstruction : Prop :=
  ∀ (s : State) (vD : VReg) (n : Word64) (rest : List Event), s.resetIn = false → s.busy = false →
    s.arrivals = programEvents (Pseudo.ldu vD n).lines ++ rest →
    ∃ t : State, core.run 4 s = .next t ∧ (t.readV vD).Minimal ∧ (t.readV vD).val = n.toNat ∧ t.err = .none ∧
      (∀ q, q ≠ vD → t.readV q = s.readV q) ∧ t.busy = false ∧ t.arrivals = rest ∧
      t.response = some ⟨false, some t.statusWord⟩
end

