-- ==== Sys2Proof/Laws/Decode.lean ====
section
/-! SUPPORT. The fields of a command word, what decoding one gives, and the mask of each format. -/

namespace Sys2Proof

/-- The natural number of a command word: the fields do not overflow 64 bits. -/
theorem commandWord_toNat (op : Nat) (hop : op < 256) (rd rs1 rs2 : VReg) (f : Bool) :
    (commandWord op rd rs1 rs2 f).toNat =
      op + rd.val * 256 + rs1.val * 4096 + rs2.val * 65536 + f.toNat * 1048576 := by
  have := rd.isLt; have := rs1.isLt; have := rs2.isLt; have := f.toNat_lt
  rw [commandWord, BitVec.toNat_ofNat, Nat.mod_eq_of_lt]
  omega

/-- A command word is decoded by its own fields (30_encoding.md R80, R86). -/
theorem decode_commandWord (op : Nat) (hop : op < 256) (rd rs1 rs2 : VReg) (f : Bool) :
    decode (commandWord op rd rs1 rs2 f) = decodeFields op rd rs1 rs2 f := by
  have h1 := rd.isLt; have h2 := rs1.isLt; have h3 := rs2.isLt; have h4 := f.toNat_lt
  have hn := commandWord_toNat op hop rd rs1 rs2 f
  have e1 : regField (commandWord op rd rs1 rs2 f) 8 = rd := by
    apply Fin.ext; simp only [regField, hn]; omega
  have e2 : regField (commandWord op rd rs1 rs2 f) 12 = rs1 := by
    apply Fin.ext; simp only [regField, hn]; omega
  have e3 : regField (commandWord op rd rs1 rs2 f) 16 = rs2 := by
    apply Fin.ext; simp only [regField, hn]; omega
  have e4 : (bitField (commandWord op rd rs1 rs2 f) 20 20 == 1) = f := by
    have : bitField (commandWord op rd rs1 rs2 f) 20 20 = f.toNat := by simp only [bitField, hn]; omega
    rw [this]; cases f <;> rfl
  have e5 : bitField (commandWord op rd rs1 rs2 f) 7 0 = op := by simp only [bitField, hn]; omega
  have e6 : bitField (commandWord op rd rs1 rs2 f) 63 32 = 0 := by simp only [bitField, hn]; omega
  have e7 : bitField (commandWord op rd rs1 rs2 f) 31 21 = 0 := by simp only [bitField, hn]; omega
  simp [decode, e1, e2, e3, e4, e5, e6, e7]

/-- A value whose reserved bits are 0 is the command word of its own fields. -/
theorem eq_commandWord {c : Word64} (h1 : bitField c 63 32 = 0) (h2 : bitField c 31 21 = 0) :
    c = commandWord (bitField c 7 0) (regField c 8) (regField c 12) (regField c 16) (bitField c 20 20 == 1) := by
  apply BitVec.eq_of_toNat_eq
  have hlt : bitField c 7 0 < 256 := by simp only [bitField]; omega
  rw [commandWord_toNat _ hlt]
  have hc := c.isLt
  have hf : (bitField c 20 20 == 1).toNat = bitField c 20 20 := by
    have : bitField c 20 20 < 2 := by simp only [bitField]; omega
    interval_cases bitField c 20 20 <;> rfl
  rw [hf]
  simp only [bitField, regField] at *
  omega

/-- What the decoder accepts, and nothing else: reserved bits 0, and the fields decode (30_encoding.md R86). -/
theorem decode_ok_iff {c : Word64} {i : Instr} : decode c = .ok i ↔
    bitField c 63 32 = 0 ∧ bitField c 31 21 = 0 ∧
      decodeFields (bitField c 7 0) (regField c 8) (regField c 12) (regField c 16) (bitField c 20 20 == 1) = .ok i := by
  unfold decode
  by_cases h1 : bitField c 63 32 = 0 <;> by_cases h2 : bitField c 31 21 = 0 <;> simp [h1, h2]

theorem requireZero_ok_iff {op : Nat} {z : Bool} {i j : Instr} :
    requireZero op z i = .ok j ↔ z = true ∧ i = j := by
  cases z <;> simp [requireZero]

/-! ### The masks of the formats (30_encoding.md R82) -/

/-- A mask whose low byte is all ones and that clears the fields of a command word keeps the opcode alone. -/
theorem and_mask (op : Nat) (hop : op < 256) (rd rs1 rs2 : VReg) (f : Bool) (m : Nat) (hm : m < 2 ^ 56)
    (h : (rd.val + rs1.val * 16 + rs2.val * 256 + f.toNat * 4096) &&& m = 0) :
    commandWord op rd rs1 rs2 f &&& BitVec.ofNat 64 (255 + 256 * m) = BitVec.ofNat 64 op := by
  have hn := commandWord_toNat op hop rd rs1 rs2 f
  have := rd.isLt; have := rs1.isLt; have := rs2.isLt; have := f.toNat_lt
  apply BitVec.eq_of_toNat_eq
  rw [BitVec.toNat_and, hn, BitVec.toNat_ofNat, BitVec.toNat_ofNat,
    Nat.mod_eq_of_lt (a := 255 + 256 * m) (by omega), Nat.mod_eq_of_lt (a := op) (by omega)]
  generalize hx : op + rd.val * 256 + rs1.val * 4096 + rs2.val * 65536 + f.toNat * 1048576 = x
  have hdiv : (x &&& (255 + 256 * m)) / 2 ^ 8 = 0 := by
    rw [Nat.and_div_two_pow, show (255 + 256 * m) / 2 ^ 8 = m by omega, ← h]
    congr 1; omega
  have hmod : (x &&& (255 + 256 * m)) % 2 ^ 8 = op := by
    rw [Nat.and_mod_two_pow, show (255 + 256 * m) % 2 ^ 8 = 2 ^ 8 - 1 by omega, Nat.and_two_pow_sub_one_eq_mod]
    omega
  omega

theorem mask_r3 (op : Nat) (hop : op < 256) (rd rs1 rs2 : VReg) :
    commandWord op rd rs1 rs2 false &&& 0xFFFFFFFFFFF000FF#64 = BitVec.ofNat 64 op :=
  and_mask op hop rd rs1 rs2 false 0xFFFFFFFFFFF000 (by decide) (by revert rd rs1 rs2; decide +kernel)

theorem mask_r2 (op : Nat) (hop : op < 256) (rd rs1 : VReg) :
    commandWord op rd rs1 0 false &&& 0xFFFFFFFFFFFF00FF#64 = BitVec.ofNat 64 op :=
  and_mask op hop rd rs1 0 false 0xFFFFFFFFFFFF00 (by decide) (by revert rd rs1; decide +kernel)

theorem mask_rdf (op : Nat) (hop : op < 256) (rd : VReg) (f : Bool) :
    commandWord op rd 0 0 f &&& 0xFFFFFFFFFFEFF0FF#64 = BitVec.ofNat 64 op :=
  and_mask op hop rd 0 0 f 0xFFFFFFFFFFEFF0 (by decide) (by revert rd f; decide +kernel)

theorem mask_rd (op : Nat) (hop : op < 256) (rd : VReg) :
    commandWord op rd 0 0 false &&& 0xFFFFFFFFFFFFF0FF#64 = BitVec.ofNat 64 op :=
  and_mask op hop rd 0 0 false 0xFFFFFFFFFFFFF0 (by decide) (by revert rd; decide +kernel)

theorem mask_s2 (op : Nat) (hop : op < 256) (rs1 rs2 : VReg) :
    commandWord op 0 rs1 rs2 false &&& 0xFFFFFFFFFFF00FFF#64 = BitVec.ofNat 64 op :=
  and_mask op hop 0 rs1 rs2 false 0xFFFFFFFFFFF00F (by decide) (by revert rs1 rs2; decide +kernel)

theorem mask_s1 (op : Nat) (hop : op < 256) (rs1 : VReg) :
    commandWord op 0 rs1 0 false &&& 0xFFFFFFFFFFFF0FFF#64 = BitVec.ofNat 64 op :=
  and_mask op hop 0 rs1 0 false 0xFFFFFFFFFFFF0F (by decide) (by revert rs1; decide +kernel)

end Sys2Proof
end

