-- ==== Sys2Proof/Laws/State.lean ====
section
/-! SUPPORT. One lemma per field per update of the state, so that no proof unfolds a record update. -/

namespace Sys2Proof.Machine

/-! ### writeV -/

@[simp] theorem State.writeV_params (s : State) (r : VReg) (x : Value) : (s.writeV r x).params = s.params := rfl
@[simp] theorem State.writeV_v (s : State) (r : VReg) (x : Value) : (s.writeV r x).v = s.v.set r.val x := rfl
@[simp] theorem State.writeV_cmd (s : State) (r : VReg) (x : Value) : (s.writeV r x).cmd = s.cmd := rfl
@[simp] theorem State.writeV_arg (s : State) (r : VReg) (x : Value) : (s.writeV r x).arg = s.arg := rfl
@[simp] theorem State.writeV_result (s : State) (r : VReg) (x : Value) : (s.writeV r x).result = s.result := rfl
@[simp] theorem State.writeV_busy (s : State) (r : VReg) (x : Value) : (s.writeV r x).busy = s.busy := rfl
@[simp] theorem State.writeV_done (s : State) (r : VReg) (x : Value) : (s.writeV r x).done = s.done := rfl
@[simp] theorem State.writeV_cmdLost (s : State) (r : VReg) (x : Value) : (s.writeV r x).cmdLost = s.cmdLost := rfl
@[simp] theorem State.writeV_err (s : State) (r : VReg) (x : Value) : (s.writeV r x).err = s.err := rfl
@[simp] theorem State.writeV_ie (s : State) (r : VReg) (x : Value) : (s.writeV r x).ie = s.ie := rfl
@[simp] theorem State.writeV_clen (s : State) (r : VReg) (x : Value) : (s.writeV r x).clen = s.clen := rfl
@[simp] theorem State.writeV_cbuf (s : State) (r : VReg) (x : Value) : (s.writeV r x).cbuf = s.cbuf := rfl
@[simp] theorem State.writeV_resetIn (s : State) (r : VReg) (x : Value) : (s.writeV r x).resetIn = s.resetIn := rfl
@[simp] theorem State.writeV_arrivals (s : State) (r : VReg) (x : Value) : (s.writeV r x).arrivals = s.arrivals := rfl
@[simp] theorem State.writeV_response (s : State) (r : VReg) (x : Value) : (s.writeV r x).response = s.response := rfl
@[simp] theorem State.writeV_draws (s : State) (r : VReg) (x : Value) : (s.writeV r x).draws = s.draws := rfl

/-! ### finish -/

@[simp] theorem State.finish_params (s : State) (e : ErrCode) : (s.finish e).params = s.params := rfl
@[simp] theorem State.finish_v (s : State) (e : ErrCode) : (s.finish e).v = s.v := rfl
@[simp] theorem State.finish_cmd (s : State) (e : ErrCode) : (s.finish e).cmd = s.cmd := rfl
@[simp] theorem State.finish_arg (s : State) (e : ErrCode) : (s.finish e).arg = s.arg := rfl
@[simp] theorem State.finish_result (s : State) (e : ErrCode) : (s.finish e).result = s.result := rfl
@[simp] theorem State.finish_busy (s : State) (e : ErrCode) : (s.finish e).busy = false := rfl
@[simp] theorem State.finish_done (s : State) (e : ErrCode) : (s.finish e).done = true := rfl
@[simp] theorem State.finish_cmdLost (s : State) (e : ErrCode) : (s.finish e).cmdLost = s.cmdLost := rfl
@[simp] theorem State.finish_err (s : State) (e : ErrCode) : (s.finish e).err = e := rfl
@[simp] theorem State.finish_ie (s : State) (e : ErrCode) : (s.finish e).ie = s.ie := rfl
@[simp] theorem State.finish_clen (s : State) (e : ErrCode) : (s.finish e).clen = s.clen := rfl
@[simp] theorem State.finish_cbuf (s : State) (e : ErrCode) : (s.finish e).cbuf = s.cbuf := rfl
@[simp] theorem State.finish_resetIn (s : State) (e : ErrCode) : (s.finish e).resetIn = s.resetIn := rfl
@[simp] theorem State.finish_arrivals (s : State) (e : ErrCode) : (s.finish e).arrivals = s.arrivals := rfl
@[simp] theorem State.finish_response (s : State) (e : ErrCode) : (s.finish e).response = s.response := rfl
@[simp] theorem State.finish_draws (s : State) (e : ErrCode) : (s.finish e).draws = s.draws := rfl

/-! ### respond -/

@[simp] theorem State.respond_params (s : State) (b : Bool) (d : Option Word64) : (s.respond b d).params = s.params := rfl
@[simp] theorem State.respond_v (s : State) (b : Bool) (d : Option Word64) : (s.respond b d).v = s.v := rfl
@[simp] theorem State.respond_cmd (s : State) (b : Bool) (d : Option Word64) : (s.respond b d).cmd = s.cmd := rfl
@[simp] theorem State.respond_arg (s : State) (b : Bool) (d : Option Word64) : (s.respond b d).arg = s.arg := rfl
@[simp] theorem State.respond_result (s : State) (b : Bool) (d : Option Word64) : (s.respond b d).result = s.result := rfl
@[simp] theorem State.respond_busy (s : State) (b : Bool) (d : Option Word64) : (s.respond b d).busy = s.busy := rfl
@[simp] theorem State.respond_done (s : State) (b : Bool) (d : Option Word64) : (s.respond b d).done = s.done := rfl
@[simp] theorem State.respond_cmdLost (s : State) (b : Bool) (d : Option Word64) : (s.respond b d).cmdLost = s.cmdLost := rfl
@[simp] theorem State.respond_err (s : State) (b : Bool) (d : Option Word64) : (s.respond b d).err = s.err := rfl
@[simp] theorem State.respond_ie (s : State) (b : Bool) (d : Option Word64) : (s.respond b d).ie = s.ie := rfl
@[simp] theorem State.respond_clen (s : State) (b : Bool) (d : Option Word64) : (s.respond b d).clen = s.clen := rfl
@[simp] theorem State.respond_cbuf (s : State) (b : Bool) (d : Option Word64) : (s.respond b d).cbuf = s.cbuf := rfl
@[simp] theorem State.respond_resetIn (s : State) (b : Bool) (d : Option Word64) : (s.respond b d).resetIn = s.resetIn := rfl
@[simp] theorem State.respond_arrivals (s : State) (b : Bool) (d : Option Word64) : (s.respond b d).arrivals = s.arrivals := rfl
@[simp] theorem State.respond_response (s : State) (b : Bool) (d : Option Word64) : (s.respond b d).response = some ⟨b, d⟩ := rfl
@[simp] theorem State.respond_draws (s : State) (b : Bool) (d : Option Word64) : (s.respond b d).draws = s.draws := rfl

/-! ### answer -/

@[simp] theorem State.answer_params (s : State) (d : Word64) : (s.answer d).params = s.params := rfl
@[simp] theorem State.answer_v (s : State) (d : Word64) : (s.answer d).v = s.v := rfl
@[simp] theorem State.answer_cmd (s : State) (d : Word64) : (s.answer d).cmd = s.cmd := rfl
@[simp] theorem State.answer_arg (s : State) (d : Word64) : (s.answer d).arg = s.arg := rfl
@[simp] theorem State.answer_result (s : State) (d : Word64) : (s.answer d).result = s.result := rfl
@[simp] theorem State.answer_busy (s : State) (d : Word64) : (s.answer d).busy = s.busy := rfl
@[simp] theorem State.answer_done (s : State) (d : Word64) : (s.answer d).done = s.done := rfl
@[simp] theorem State.answer_cmdLost (s : State) (d : Word64) : (s.answer d).cmdLost = s.cmdLost := rfl
@[simp] theorem State.answer_err (s : State) (d : Word64) : (s.answer d).err = s.err := rfl
@[simp] theorem State.answer_ie (s : State) (d : Word64) : (s.answer d).ie = s.ie := rfl
@[simp] theorem State.answer_clen (s : State) (d : Word64) : (s.answer d).clen = s.clen := rfl
@[simp] theorem State.answer_cbuf (s : State) (d : Word64) : (s.answer d).cbuf = s.cbuf := rfl
@[simp] theorem State.answer_resetIn (s : State) (d : Word64) : (s.answer d).resetIn = s.resetIn := rfl
@[simp] theorem State.answer_arrivals (s : State) (d : Word64) : (s.answer d).arrivals = s.arrivals := rfl
@[simp] theorem State.answer_response (s : State) (d : Word64) : (s.answer d).response = some ⟨false, some d⟩ := rfl
@[simp] theorem State.answer_draws (s : State) (d : Word64) : (s.answer d).draws = s.draws := rfl

/-! ### writeStatus -/

@[simp] theorem State.writeStatus_params (s : State) (d : Word64) : (s.writeStatus d).params = s.params := rfl
@[simp] theorem State.writeStatus_v (s : State) (d : Word64) : (s.writeStatus d).v = s.v := rfl
@[simp] theorem State.writeStatus_cmd (s : State) (d : Word64) : (s.writeStatus d).cmd = s.cmd := rfl
@[simp] theorem State.writeStatus_arg (s : State) (d : Word64) : (s.writeStatus d).arg = s.arg := rfl
@[simp] theorem State.writeStatus_result (s : State) (d : Word64) : (s.writeStatus d).result = s.result := rfl
@[simp] theorem State.writeStatus_busy (s : State) (d : Word64) : (s.writeStatus d).busy = s.busy := rfl
@[simp] theorem State.writeStatus_done (s : State) (d : Word64) : (s.writeStatus d).done = (s.done && !d.getLsbD 1) := rfl
@[simp] theorem State.writeStatus_cmdLost (s : State) (d : Word64) : (s.writeStatus d).cmdLost = (s.cmdLost && !d.getLsbD 2) := rfl
@[simp] theorem State.writeStatus_err (s : State) (d : Word64) : (s.writeStatus d).err = s.err := rfl
@[simp] theorem State.writeStatus_ie (s : State) (d : Word64) : (s.writeStatus d).ie = s.ie := rfl
@[simp] theorem State.writeStatus_clen (s : State) (d : Word64) : (s.writeStatus d).clen = s.clen := rfl
@[simp] theorem State.writeStatus_cbuf (s : State) (d : Word64) : (s.writeStatus d).cbuf = s.cbuf := rfl
@[simp] theorem State.writeStatus_resetIn (s : State) (d : Word64) : (s.writeStatus d).resetIn = s.resetIn := rfl
@[simp] theorem State.writeStatus_arrivals (s : State) (d : Word64) : (s.writeStatus d).arrivals = s.arrivals := rfl
@[simp] theorem State.writeStatus_response (s : State) (d : Word64) : (s.writeStatus d).response = s.response := rfl
@[simp] theorem State.writeStatus_draws (s : State) (d : Word64) : (s.writeStatus d).draws = s.draws := rfl

/-! ### clear -/

@[simp] theorem State.clear_params (s : State) : (s.clear).params = s.params := rfl
@[simp] theorem State.clear_v (s : State) : (s.clear).v = Vector.replicate 16 Value.empty := rfl
@[simp] theorem State.clear_cmd (s : State) : (s.clear).cmd = 0 := rfl
@[simp] theorem State.clear_arg (s : State) : (s.clear).arg = 0 := rfl
@[simp] theorem State.clear_result (s : State) : (s.clear).result = 0 := rfl
@[simp] theorem State.clear_busy (s : State) : (s.clear).busy = false := rfl
@[simp] theorem State.clear_done (s : State) : (s.clear).done = false := rfl
@[simp] theorem State.clear_cmdLost (s : State) : (s.clear).cmdLost = false := rfl
@[simp] theorem State.clear_err (s : State) : (s.clear).err = .none := rfl
@[simp] theorem State.clear_ie (s : State) : (s.clear).ie = false := rfl
@[simp] theorem State.clear_clen (s : State) : (s.clear).clen = 0 := rfl
@[simp] theorem State.clear_cbuf (s : State) : (s.clear).cbuf = [] := rfl
@[simp] theorem State.clear_resetIn (s : State) : (s.clear).resetIn = s.resetIn := rfl
@[simp] theorem State.clear_arrivals (s : State) : (s.clear).arrivals = s.arrivals := rfl
@[simp] theorem State.clear_response (s : State) : (s.clear).response = s.response := rfl
@[simp] theorem State.clear_draws (s : State) : (s.clear).draws = s.draws := rfl

/-! ### issued -/

@[simp] theorem State.issued_params (s : State) (w : Nat) : (s.issued w).params = s.params := rfl
@[simp] theorem State.issued_v (s : State) (w : Nat) : (s.issued w).v = s.v := rfl
@[simp] theorem State.issued_cmd (s : State) (w : Nat) : (s.issued w).cmd = BitVec.ofNat 64 w := rfl
@[simp] theorem State.issued_arg (s : State) (w : Nat) : (s.issued w).arg = s.arg := rfl
@[simp] theorem State.issued_result (s : State) (w : Nat) : (s.issued w).result = s.result := rfl
@[simp] theorem State.issued_busy (s : State) (w : Nat) : (s.issued w).busy = true := rfl
@[simp] theorem State.issued_done (s : State) (w : Nat) : (s.issued w).done = false := rfl
@[simp] theorem State.issued_cmdLost (s : State) (w : Nat) : (s.issued w).cmdLost = s.cmdLost := rfl
@[simp] theorem State.issued_err (s : State) (w : Nat) : (s.issued w).err = s.err := rfl
@[simp] theorem State.issued_ie (s : State) (w : Nat) : (s.issued w).ie = s.ie := rfl
@[simp] theorem State.issued_clen (s : State) (w : Nat) : (s.issued w).clen = s.clen := rfl
@[simp] theorem State.issued_cbuf (s : State) (w : Nat) : (s.issued w).cbuf = s.cbuf := rfl
@[simp] theorem State.issued_resetIn (s : State) (w : Nat) : (s.issued w).resetIn = false := rfl
@[simp] theorem State.issued_arrivals (s : State) (w : Nat) : (s.issued w).arrivals = .engine :: s.arrivals := rfl
@[simp] theorem State.issued_response (s : State) (w : Nat) : (s.issued w).response = s.response := rfl
@[simp] theorem State.issued_draws (s : State) (w : Nat) : (s.issued w).draws = s.draws := rfl

/-! ### answerFree -/

@[simp] theorem State.answerFree_params (s : State) (w : Nat) : (s.answerFree w).params = s.params := rfl
@[simp] theorem State.answerFree_v (s : State) (w : Nat) : (s.answerFree w).v = s.v := rfl
@[simp] theorem State.answerFree_cmd (s : State) (w : Nat) : (s.answerFree w).cmd = s.cmd := rfl
@[simp] theorem State.answerFree_arg (s : State) (w : Nat) : (s.answerFree w).arg = s.arg := rfl
@[simp] theorem State.answerFree_result (s : State) (w : Nat) : (s.answerFree w).result = s.result := rfl
@[simp] theorem State.answerFree_busy (s : State) (w : Nat) : (s.answerFree w).busy = s.busy := rfl
@[simp] theorem State.answerFree_done (s : State) (w : Nat) : (s.answerFree w).done = s.done := rfl
@[simp] theorem State.answerFree_cmdLost (s : State) (w : Nat) : (s.answerFree w).cmdLost = s.cmdLost := rfl
@[simp] theorem State.answerFree_err (s : State) (w : Nat) : (s.answerFree w).err = s.err := rfl
@[simp] theorem State.answerFree_ie (s : State) (w : Nat) : (s.answerFree w).ie = s.ie := rfl
@[simp] theorem State.answerFree_clen (s : State) (w : Nat) : (s.answerFree w).clen = s.clen := rfl
@[simp] theorem State.answerFree_cbuf (s : State) (w : Nat) : (s.answerFree w).cbuf = s.cbuf := rfl
@[simp] theorem State.answerFree_resetIn (s : State) (w : Nat) : (s.answerFree w).resetIn = s.resetIn := rfl
@[simp] theorem State.answerFree_arrivals (s : State) (w : Nat) : (s.answerFree w).arrivals = s.arrivals := rfl
@[simp] theorem State.answerFree_draws (s : State) (w : Nat) : (s.answerFree w).draws = s.draws + 1 := rfl

/-! ### Value registers -/

@[simp] theorem State.readV_writeV_same (s : State) (r : VReg) (x : Value) : (s.writeV r x).readV r = x := by
  simp [State.readV, State.writeV]

theorem State.readV_writeV_ne (s : State) {r q : VReg} (x : Value) (h : q ≠ r) : (s.writeV r x).readV q = s.readV q := by
  have : r.val ≠ q.val := fun e => h (Fin.ext e.symm)
  simp [State.readV, State.writeV, Vector.getElem_set_ne, this]

theorem State.readV_writeV (s : State) (r q : VReg) (x : Value) :
    (s.writeV r x).readV q = if q = r then x else s.readV q := by
  split
  · subst_vars; exact s.readV_writeV_same _ x
  · exact s.readV_writeV_ne x ‹_›

/-- Reading a register depends on the register file alone. -/
theorem State.readV_congr {s t : State} (h : t.v = s.v) (r : VReg) : t.readV r = s.readV r := by
  simp [State.readV, h]

@[simp] theorem State.readV_finish (s : State) (e : ErrCode) (r : VReg) : (s.finish e).readV r = s.readV r := rfl

@[simp] theorem State.readV_respond (s : State) (b : Bool) (d : Option Word64) (r : VReg) :
    (s.respond b d).readV r = s.readV r := rfl

@[simp] theorem State.readV_clear (s : State) (r : VReg) : s.clear.readV r = Value.empty := by
  simp [State.readV]

@[simp] theorem State.readV_resetOf (p : Params) (r : VReg) : (State.resetOf p).readV r = Value.empty := by
  simp [State.readV, State.resetOf]

/-! ### Reset -/

@[simp] theorem State.clear_clear (s : State) : s.clear.clear = s.clear := rfl

theorem State.held_of_released {s : State} (h : s.resetIn = false) : s.held = s := by simp [State.held, h]

theorem State.held_of_asserted {s : State} (h : s.resetIn = true) : s.held = s.clear := by simp [State.held, h]

@[simp] theorem State.held_arrivals (s : State) : s.held.arrivals = s.arrivals := by
  unfold State.held; split <;> rfl

@[simp] theorem State.held_params (s : State) : s.held.params = s.params := by
  unfold State.held; split <;> rfl

@[simp] theorem State.held_resetIn (s : State) : s.held.resetIn = s.resetIn := by
  unfold State.held; split <;> rfl

end Sys2Proof.Machine
end

