-- ==== Sys2Proof/Laws/Mem.lean ====
section
/-! SUPPORT. The laws of CBUF: a read after a write, and that every memory operation keeps the canonical form. -/

namespace Sys2Proof.Machine

@[simp] theorem Mem.read_nil (a : Nat) : Mem.read [] a = none := rfl

/-- A read after a write gives the byte written at its index, and leaves every other index alone. -/
theorem Mem.read_write (m : Mem) (a : Nat) (b : Byte) (c : Nat) :
    Mem.read (Mem.write m a b) c = if c = a then some b else Mem.read m c := by
  induction m with
  | nil => simp [Mem.write, Mem.read]
  | cons cell m ih =>
    obtain ⟨a', b'⟩ := cell
    simp only [Mem.write]
    split
    · simp [Mem.read]
    · split
      · subst_vars; simp only [Mem.read]; split <;> simp_all
      · simp only [Mem.read, ih]; split <;> split <;> simp_all

/-- Bytes written from index a up are read back; every other index is unchanged. -/
theorem Mem.read_writeBytes (m : Mem) (a : Nat) (bs : List Byte) (c : Nat) :
    Mem.read (Mem.writeBytes m a bs) c = if a ≤ c ∧ c < a + bs.length then bs[c - a]? else Mem.read m c := by
  induction bs generalizing m a with
  | nil => simp only [Mem.writeBytes, List.length_nil]; rw [if_neg (by omega)]
  | cons b bs ih =>
    rw [Mem.writeBytes, ih, Mem.read_write, List.length_cons]
    by_cases h : c = a
    · subst h; simp
    · by_cases h2 : a + 1 ≤ c ∧ c < a + 1 + bs.length
      · rw [if_pos h2, if_pos (by omega), show c - a = (c - (a + 1)) + 1 by omega, List.getElem?_cons_succ]
      · rw [if_neg h2, if_neg h, if_neg (by omega)]

/-- A cell of the memory after a write is the written one or was there before. -/
theorem Mem.mem_write {m : Mem} {a : Nat} {b : Byte} {c : Host.Cell} (h : c ∈ Mem.write m a b) : c = (a, b) ∨ c ∈ m := by
  induction m with
  | nil => simpa [Mem.write] using h
  | cons cell m ih =>
    simp only [Mem.write] at h
    split at h
    · simpa using h
    · split at h
      · rcases List.mem_cons.1 h with h | h <;> simp_all
      · rcases List.mem_cons.1 h with h | h
        · simp_all
        · rcases ih h with h | h <;> simp_all

/-- A write keeps the canonical form. -/
theorem Mem.wf_write {m : Mem} (hm : Mem.wf m) (a : Nat) (b : Byte) : Mem.wf (Mem.write m a b) := by
  induction m with
  | nil => exact List.pairwise_singleton _ _
  | cons cell m ih =>
    obtain ⟨a', b'⟩ := cell
    obtain ⟨h1, h2⟩ := List.pairwise_cons.1 hm
    simp only [Mem.write]
    split
    · refine List.pairwise_cons.2 ⟨fun c hc => ?_, hm⟩
      rcases List.mem_cons.1 hc with rfl | hc
      · assumption
      · have := h1 c hc; simp only at *; omega
    · split
      · subst_vars; exact List.pairwise_cons.2 ⟨h1, h2⟩
      · refine List.pairwise_cons.2 ⟨fun c hc => ?_, ih h2⟩
        rcases Mem.mem_write hc with rfl | hc
        · simp only; omega
        · exact h1 c hc

/-- A write of several bytes keeps the canonical form. -/
theorem Mem.wf_writeBytes {m : Mem} (hm : Mem.wf m) (a : Nat) (bs : List Byte) : Mem.wf (Mem.writeBytes m a bs) := by
  induction bs generalizing m a with
  | nil => exact hm
  | cons b bs ih => exact ih (Mem.wf_write hm a b) (a + 1)

/-- The indexes written lie below n if all of them did before and the text fits. -/
theorem Mem.bounded_writeBytes {m : Mem} {n : Nat} (hm : ∀ c ∈ m, c.1 < n) (a : Nat) (bs : List Byte)
    (h : a + bs.length ≤ n) : ∀ c ∈ Mem.writeBytes m a bs, c.1 < n := by
  induction bs generalizing m a with
  | nil => exact hm
  | cons b bs ih =>
    simp only [List.length_cons] at h
    refine ih (fun c hc => ?_) (a + 1) (by omega)
    rcases Mem.mem_write hc with rfl | hc
    · simp only; omega
    · exact hm c hc

@[simp] theorem bytesLE_length (d n : Nat) : (bytesLE d n).length = n := by
  induction n generalizing d with
  | zero => rfl
  | succ n ih => simp [bytesLE, ih]

/-- Byte i of a little-endian number (20_memory.md R53). -/
theorem bytesLE_getElem? (d n i : Nat) (h : i < n) : (bytesLE d n)[i]? = some (BitVec.ofNat 8 (d / 256 ^ i)) := by
  induction n generalizing d i with
  | zero => omega
  | succ n ih =>
    cases i with
    | zero => simp [bytesLE]
    | succ i => simp [bytesLE, ih _ i (by omega), Nat.div_div_eq_div_mul, Nat.pow_succ, Nat.mul_comm]

/-- A read of n written bytes answers their little-endian number. -/
theorem Mem.readLE_ok {m : Mem} {n a : Nat} {b : Nat → Byte} (h : ∀ i, i < n → Mem.read m (a + i) = some (b i)) :
    ∃ d, Mem.readLE m n a = .ok d ∧ d < 256 ^ n ∧ ∀ i, i < n → BitVec.ofNat 8 (d / 256 ^ i) = b i := by
  induction n generalizing a b with
  | zero => exact ⟨0, rfl, by simp, by omega⟩
  | succ n ih =>
    obtain ⟨d, hd, hlt, hb⟩ := ih (a := a + 1) (b := fun i => b (i + 1)) fun i hi => by
      have := h (i + 1) (by omega); rwa [show a + 1 + i = a + (i + 1) by omega]
    have h0 := h 0 (by omega)
    have hb0 := (b 0).isLt
    refine ⟨(b 0).toNat + 256 * d, by simp [Mem.readLE, Nat.add_zero a ▸ h0, hd], ?_, fun i hi => ?_⟩
    · rw [Nat.pow_succ]; omega
    · cases i with
      | zero => apply BitVec.eq_of_toNat_eq; simp; omega
      | succ i =>
        have h256 : ((b 0).toNat + 256 * d) / 256 = d := by omega
        rw [Nat.pow_succ', ← Nat.div_div_eq_div_mul, h256]
        exact hb i (by omega)

/-- A read whose lowest unwritten byte is number k answers its index. -/
theorem Mem.readLE_error {m : Mem} {n a k : Nat} (hk : k < n) (h : Mem.read m (a + k) = none)
    (hlow : ∀ i, i < k → Mem.read m (a + i) ≠ none) : Mem.readLE m n a = .error (a + k) := by
  induction n generalizing a k with
  | zero => omega
  | succ n ih =>
    cases k with
    | zero => simp [Mem.readLE, Nat.add_zero a ▸ h]
    | succ k =>
      have h0 := hlow 0 (by omega)
      simp only [Nat.add_zero] at h0
      have := ih (a := a + 1) (k := k) (by omega) (by rwa [show a + 1 + k = a + (k + 1) by omega]) fun i hi => by
        have := hlow (i + 1) (by omega); rwa [show a + 1 + i = a + (i + 1) by omega]
      cases hr : Mem.read m a with
      | none => exact absurd hr h0
      | some b => simp [Mem.readLE, hr, this]; omega

end Sys2Proof.Machine
end

