-- ==== Sys2Proof/Laws/Value.lean ====
section
/-! SUPPORT. The laws of the helper functions of 00_scope.md R13 and of the texts: bitlen is the minimal length, the digits of
TOSTR spell the value, the characters of TOBITS are its bits, and LDSTR reads back what it should. -/

namespace Sys2Proof.Machine

/-! ### bitlen, ones, minimal values -/

theorem bitlen_pos (n : Nat) : 0 < bitlen n := by unfold bitlen; split <;> omega

theorem lt_two_pow_bitlen (n : Nat) : n < 2 ^ bitlen n := by
  unfold bitlen; split
  · subst_vars; decide
  · exact Nat.lt_log2_self

/-- bitlen is the least positive length that holds n. -/
theorem bitlen_le {n l : Nat} (h : n < 2 ^ l) (hl : 1 ≤ l) : bitlen n ≤ l := by
  unfold bitlen; split
  · exact hl
  · have := (Nat.log2_lt ‹_›).2 h; omega

theorem two_pow_bitlen_le {n : Nat} (h : 1 < bitlen n) : 2 ^ (bitlen n - 1) ≤ n := by
  unfold bitlen at *; split at h
  · omega
  · rename_i hn; simp only [if_neg hn, Nat.add_sub_cancel]; exact Nat.log2_self_le hn

/-- minimal n is canonical (41_structural.md R121). -/
theorem minimal_Minimal (n : Nat) : (minimal n).Minimal := by
  refine ⟨lt_two_pow_bitlen n, ?_⟩
  have := bitlen_pos n
  by_cases h : bitlen n = 1
  · exact .inl h
  · have h1 : 1 < bitlen n := by omega
    exact .inr ⟨h1, two_pow_bitlen_le h1⟩

theorem zero1_Minimal : Value.zero1.Minimal := ⟨by decide, .inl rfl⟩

/-- A canonical value is determined by its magnitude. -/
theorem Value.Minimal.eq_minimal {x : Value} (h : x.Minimal) : x = minimal x.val := by
  obtain ⟨hlt, h⟩ := h
  have : x.len = bitlen x.val := by
    have hpos : 1 ≤ x.len := by omega
    have hle := bitlen_le hlt hpos
    have hb := bitlen_pos x.val
    rcases h with h | ⟨h1, h2⟩
    · omega
    · have := lt_two_pow_bitlen x.val
      have : x.len - 1 < bitlen x.val := (Nat.pow_lt_pow_iff_right (by omega : 1 < 2)).1 (lt_of_le_of_lt h2 this)
      omega
  cases x; simp_all [minimal]

theorem minimal_wf {p : Params} {n l : Nat} (h : n < 2 ^ l) (h1 : 1 ≤ l) (hl : l ≤ p.maxBits) : (minimal n).wf p :=
  ⟨lt_two_pow_bitlen n, (bitlen_le h h1).trans hl⟩

theorem ones_lt (n : Nat) : ones n < 2 ^ n := Nat.sub_lt (Nat.two_pow_pos n) (by decide)

theorem ones_testBit (n i : Nat) : (ones n).testBit i = decide (i < n) := by
  simp [ones, Nat.testBit_two_pow_sub_one]

/-! ### The characters of TOBITS -/

@[simp] theorem bitChars_length (l v : Nat) : (bitChars l v).length = l := by
  induction l with
  | zero => rfl
  | succ l ih => simp [bitChars, ih]

theorem bitChars_getElem? (l v j : Nat) (h : j < l) :
    (bitChars l v)[j]? = some (BitVec.ofNat 8 (0x30 + v / 2 ^ (l - 1 - j) % 2)) := by
  induction l generalizing j with
  | zero => omega
  | succ l ih =>
    cases j with
    | zero => simp [bitChars]
    | succ j =>
      simp only [bitChars, List.getElem?_cons_succ, ih j (by omega)]
      rw [show l + 1 - 1 - (j + 1) = l - 1 - j by omega]

/-! ### The string operand of LDSTR -/

/-- A string of binary digits is read as a number: its bits below n are the digits, the rest is what came before. -/
theorem parseBits_digits (m : Mem) (n j acc : Nat)
    (h : ∀ i, i < n → Mem.read m (j + i) = some 0x30#8 ∨ Mem.read m (j + i) = some 0x31#8) :
    ∃ v, parseBits m n j acc = .value v ∧ v / 2 ^ n = acc ∧
      ∀ i, i < n → v.testBit (n - 1 - i) = (Mem.read m (j + i) == some 0x31#8) := by
  induction n generalizing j acc with
  | zero => exact ⟨acc, rfl, by simp, by omega⟩
  | succ n ih =>
    have hrest : ∀ i, i < n → Mem.read m (j + 1 + i) = some 0x30#8 ∨ Mem.read m (j + 1 + i) = some 0x31#8 := by
      intro i hi; have := h (i + 1) (by omega); rwa [show j + 1 + i = j + (i + 1) by omega]
    have key : ∀ d : Nat, d < 2 → Mem.read m j = some (BitVec.ofNat 8 (0x30 + d)) →
        ∃ v, parseBits m n (j + 1) (2 * acc + d) = .value v ∧ v / 2 ^ (n + 1) = acc ∧
          ∀ i, i < n + 1 → v.testBit (n + 1 - 1 - i) = (Mem.read m (j + i) == some 0x31#8) := by
      intro d hd hr
      obtain ⟨v, hv, hacc, hbits⟩ := ih (j + 1) (2 * acc + d) hrest
      refine ⟨v, hv, ?_, fun i hi => ?_⟩
      · rw [Nat.pow_succ, ← Nat.div_div_eq_div_mul, hacc]; omega
      · cases i with
        | zero =>
          simp only [Nat.add_sub_cancel, Nat.sub_zero, Nat.add_zero, Nat.testBit_eq_decide_div_mod_eq, hacc, hr]
          interval_cases d <;> simp
        | succ i =>
          rw [show n + 1 - 1 - (i + 1) = n - 1 - i by omega, show j + (i + 1) = j + 1 + i by omega]
          exact hbits i (by omega)
    rcases h 0 (by omega) with h0 | h0 <;> simp only [Nat.add_zero] at h0
    · obtain ⟨v, hv, hr⟩ := key 0 (by omega) h0
      exact ⟨v, by simpa [parseBits, h0] using hv, hr⟩
    · obtain ⟨v, hv, hr⟩ := key 1 (by omega) h0
      exact ⟨v, by simpa [parseBits, h0] using hv, hr⟩

/-- The first character that is no binary digit ends the string (60_exceptions.md R205), as bad or as unwritten. -/
theorem parseBits_stop (m : Mem) (n j acc k : Nat) (hk : k < n)
    (hlow : ∀ i, i < k → Mem.read m (j + i) = some 0x30#8 ∨ Mem.read m (j + i) = some 0x31#8)
    (h0 : Mem.read m (j + k) ≠ some 0x30#8) (h1 : Mem.read m (j + k) ≠ some 0x31#8) :
    parseBits m n j acc = match Mem.read m (j + k) with
      | none => .unwritten (j + k)
      | some _ => .badChar := by
  induction n generalizing j acc k with
  | zero => omega
  | succ n ih =>
    cases k with
    | zero =>
      simp only [Nat.add_zero] at *
      cases hr : Mem.read m j with
      | none => simp [parseBits, hr]
      | some c => simp_all [parseBits]
    | succ k =>
      have hih := fun acc => ih (j + 1) acc k (by omega)
        (fun i hi => by have := hlow (i + 1) (by omega); rwa [show j + 1 + i = j + (i + 1) by omega])
        (by rwa [show j + 1 + k = j + (k + 1) by omega]) (by rwa [show j + 1 + k = j + (k + 1) by omega])
      rw [show j + (k + 1) = j + 1 + k by omega]
      rcases hlow 0 (by omega) with h | h <;> simp only [Nat.add_zero] at h <;> simp [parseBits, h, hih]

/-! ### The digits of TOSTR -/

/-- What a list of base-b digits spells, most significant first. -/
def spells (b : Nat) (ds : List Nat) : Nat := ds.foldl (fun a d => a * b + d) 0

theorem foldl_spells (b : Nat) (ds : List Nat) (a : Nat) :
    ds.foldl (fun a d => a * b + d) a = a * b ^ ds.length + spells b ds := by
  unfold spells
  induction ds generalizing a with
  | nil => simp
  | cons d ds ih =>
    rw [List.foldl_cons, ih, List.foldl_cons, ih (0 * b + d), List.length_cons, Nat.pow_succ]
    ring

theorem digitsLoop_spec (b : Nat) (hb : 2 ≤ b) (fuel v : Nat) (ds : List Nat) (hv : v < 2 ^ fuel)
    (hds : ∀ d ∈ ds, d < b) (hhead : v = 0 → ds.head? ≠ some 0) :
    (∀ d ∈ digitsLoop b fuel v ds, d < b) ∧ (digitsLoop b fuel v ds).head? ≠ some 0 ∧
      spells b (digitsLoop b fuel v ds) = v * b ^ ds.length + spells b ds ∧
      (digitsLoop b fuel v ds).length ≤ ds.length + fuel ∧ (v ≠ 0 → ds.length < (digitsLoop b fuel v ds).length) := by
  induction fuel generalizing v ds with
  | zero =>
    have : v = 0 := by omega
    subst this; simpa [digitsLoop, hhead] using hds
  | succ fuel ih =>
    rw [digitsLoop]
    split
    · subst_vars; simp_all
    · rename_i hv0
      have hdiv : v / b < 2 ^ fuel := by
        rw [Nat.div_lt_iff_lt_mul (by omega)]
        calc v < 2 ^ fuel * 2 := by rw [← Nat.pow_succ]; exact hv
          _ ≤ 2 ^ fuel * b := Nat.mul_le_mul_left _ hb
      have hlt : v % b < b := Nat.mod_lt _ (by omega)
      have hh : v / b = 0 → (v % b :: ds).head? ≠ some 0 := by
        intro h0
        have : v < b := (Nat.div_eq_zero_iff_lt (by omega)).1 h0
        simp [Nat.mod_eq_of_lt this, hv0]
      obtain ⟨h1, h2, h3, h4, h5⟩ := ih (v / b) (v % b :: ds) hdiv (by simpa [hlt] using hds) hh
      refine ⟨h1, h2, ?_, by simp only [List.length_cons] at h4; omega, fun _ => ?_⟩
      · have hs : spells b (v % b :: ds) = v % b * b ^ ds.length + spells b ds := by
          have := foldl_spells b ds (v % b)
          simpa [spells] using this
        rw [h3, hs, List.length_cons, Nat.pow_succ]
        have := Nat.div_add_mod v b
        calc v / b * (b ^ ds.length * b) + (v % b * b ^ ds.length + spells b ds)
            = (b * (v / b) + v % b) * b ^ ds.length + spells b ds := by ring
          _ = v * b ^ ds.length + spells b ds := by rw [this]
      · by_cases h0 : v / b = 0
        · have hle : (digitsLoop b fuel (v / b) (v % b :: ds)) = v % b :: ds := by
            rw [h0]; cases fuel <;> simp [digitsLoop]
          rw [hle]; simp
        · have := h5 h0; simp only [List.length_cons] at this; omega

/-- The digits of v in base b: below b, no leading zero unless v = 0, spelling v, and no more of them than v has bits. -/
theorem digits_spec (b v : Nat) (hb : 2 ≤ b) :
    (∀ d ∈ digits b v, d < b) ∧ (v = 0 → digits b v = [0]) ∧ (v ≠ 0 → (digits b v).head? ≠ some 0) ∧
      spells b (digits b v) = v ∧ digits b v ≠ [] ∧ (digits b v).length ≤ bitlen v := by
  unfold digits
  split
  · subst_vars
    refine ⟨by simp; omega, fun _ => rfl, by simp, by simp [spells], by simp, by simp [bitlen]⟩
  · rename_i hv
    obtain ⟨h1, h2, h3, h4, h5⟩ := digitsLoop_spec b hb (bitlen v) v [] (lt_two_pow_bitlen v) (by simp) (by simp)
    have hpos := h5 hv
    refine ⟨h1, fun h => absurd h hv, fun _ => h2, by simpa [spells] using h3, ?_, by simpa using h4⟩
    intro hnil; rw [hnil] at hpos; simp at hpos

end Sys2Proof.Machine
end

