-- ==== Sys2Proof/Laws/Ops.lean ====
section
/-! SUPPORT. What each shared operation can do, said once, and what every command can do: exec_next is the inversion lemma
of exec, from which frames and invariants follow without unfolding a meaning. -/

namespace Sys2Proof.Machine

/-! ### The outcomes of the shared operations -/

@[simp] theorem raiseError_eq (s : State) (e : ErrCode) : raiseError s e = .next (failedWith s e) := rfl

@[simp] theorem commitNothing_eq (s : State) : commitNothing s = .next (nothingWritten s) := rfl

@[simp] theorem commitValue_eq (s : State) (rd : VReg) (x : Value) : commitValue s rd x = .next (valueWritten s rd x) := rfl

@[simp] theorem commitResult_eq (s : State) (r : Nat) :
    commitResult s r = .next (resultWritten s (BitVec.ofNat 64 r)) := rfl

@[simp] theorem commitBitwise_eq (op : Nat → Nat → Nat) (rd rs1 rs2 : VReg) (s : State) :
    commitBitwise op rd rs1 rs2 s = .next (valueWritten s rd
      { len := max (s.readV rs1).len (s.readV rs2).len, val := op (s.readV rs1).val (s.readV rs2).val }) := rfl

/-- A text command writes its text, its length and the completion fields, and nothing else. -/
theorem commitText_spec (s : State) (text : List Byte) (h : text.length < 2 ^ 64) :
    ∃ t, commitText s text = .next t ∧ TextWritten s t text.length (fun j => text[j]?.getD 0) := by
  refine ⟨_, rfl, rfl, ?_, fun j hj => ?_, fun j hj => ?_⟩
  · simp [State.finish]; omega
  · simp [State.cbufByte, State.finish, Mem.read_writeBytes, hj]
  · simp only [State.cbufByte, State.finish, Mem.read_writeBytes]
    rw [if_neg (by omega)]

/-! ### Reading the states commands leave -/

@[simp] theorem readV_failedWith (s : State) (e : ErrCode) (r : VReg) : (failedWith s e).readV r = s.readV r := rfl

@[simp] theorem readV_nothingWritten (s : State) (r : VReg) : (nothingWritten s).readV r = s.readV r := rfl

@[simp] theorem readV_resultWritten (s : State) (x : Word64) (r : VReg) : (resultWritten s x).readV r = s.readV r := rfl

theorem readV_valueWritten (s : State) (rd r : VReg) (x : Value) :
    (valueWritten s rd x).readV r = if r = rd then x else s.readV r := s.readV_writeV rd r x

@[simp] theorem readV_valueWritten_same (s : State) (rd : VReg) (x : Value) : (valueWritten s rd x).readV rd = x := by
  simp [readV_valueWritten]

/-! ### Legal contents -/

theorem Value.empty_wf (p : Params) : Value.empty.wf p := ⟨by decide, Nat.zero_le _⟩

theorem Value.zero1_wf {p : Params} (h : p.legal) : Value.zero1.wf p := ⟨by decide, by have := h.1; simp [zero1]; omega⟩

/-- A number read from a string of n characters has n bits (40_construction.md R103). -/
theorem parseBits_lt {m : Mem} {n j acc v : Nat} (h : parseBits m n j acc = .value v) : v < (acc + 1) * 2 ^ n := by
  induction n generalizing j acc with
  | zero => simp [parseBits] at h; omega
  | succ n ih =>
    simp only [parseBits] at h
    split at h
    · cases h
    · split at h
      · have := ih h; rw [Nat.pow_succ]; nlinarith [Nat.two_pow_pos n]
      · split at h
        · have := ih h; rw [Nat.pow_succ]; nlinarith [Nat.two_pow_pos n]
        · cases h

/-- Doubling the two-power bound of a product: the widths add (44_shift.md R160, 46_muldiv.md R180). -/
theorem mul_lt_two_pow {a b m n : Nat} (ha : a < 2 ^ m) (hb : b < 2 ^ n) : a * b < 2 ^ (m + n) := by
  rw [Nat.pow_add]; exact Nat.mul_lt_mul'' ha hb

theorem add_lt_two_pow {a b m n : Nat} (ha : a < 2 ^ m) (hb : b < 2 ^ n) : a + b < 2 ^ (max m n + 1) := by
  have h1 := Nat.pow_le_pow_right (n := 2) (by decide) (Nat.le_max_left m n)
  have h2 := Nat.pow_le_pow_right (n := 2) (by decide) (Nat.le_max_right m n)
  rw [Nat.pow_succ]; omega

theorem lt_two_pow_max {a b m n : Nat} (ha : a < 2 ^ m) (hb : b < 2 ^ n) : a < 2 ^ max m n ∧ b < 2 ^ max m n :=
  ⟨ha.trans_le (Nat.pow_le_pow_right (by decide) (Nat.le_max_left m n)),
    hb.trans_le (Nat.pow_le_pow_right (by decide) (Nat.le_max_right m n))⟩

/-- A magnitude no larger than a legal content's is legal at its minimal length. -/
theorem minimal_wf_of_le {p : Params} (hp : p.legal) {x : Value} (hx : x.wf p) {n : Nat} (h : n ≤ x.val) :
    (minimal n).wf p := by
  have h64 := hp.1
  refine minimal_wf (l := max 1 x.len) (lt_of_le_of_lt h (hx.1.trans_le ?_)) (Nat.le_max_left _ _) ?_
  · exact Nat.pow_le_pow_right (by decide) (Nat.le_max_right _ _)
  · exact Nat.max_le.2 ⟨by omega, hx.2⟩

/-! ### What every command can do -/

/-- The writes of a command that answers a next state: an error and nothing else, nothing, one legal value into its
destination, RESULT, or a text no longer than MAX_BITS into CBUF and CLEN. -/
theorem exec_next {i : Instr} {s t : State} (h : exec i s = .next t) :
    (∃ e, e ≠ .none ∧ t = failedWith s e) ∨ t = nothingWritten s ∨
    (∃ rd x, i.destination = some rd ∧ t = valueWritten s rd x ∧ (s.params.legal → s.valuesWf → x.wf s.params)) ∨
    (i.writesResult = true ∧ ∃ r, t = resultWritten s r) ∨
    (i.destination = none ∧ i.writesResult = false ∧ ∃ text : List Byte, commitText s text = .next t ∧
      text.length = i.storedBytes s ∧ (s.params.legal → s.valuesWf → text.length ≤ s.params.maxBits)) := by
  have err : ∀ {e}, e ≠ .none → raiseError s e = .next t → ∃ e, e ≠ .none ∧ t = failedWith s e :=
    fun he h => ⟨_, he, by cases h; rfl⟩
  have val : ∀ {rd x}, i.destination = some rd → commitValue s rd x = .next t →
      (s.params.legal → s.valuesWf → x.wf s.params) →
      ∃ rd x, i.destination = some rd ∧ t = valueWritten s rd x ∧ (s.params.legal → s.valuesWf → x.wf s.params) :=
    fun hd h hx => ⟨_, _, hd, by cases h; rfl, hx⟩
  have res : ∀ {r}, commitResult s r = .next t → ∃ r, t = resultWritten s r :=
    fun {r} h => ⟨BitVec.ofNat 64 r, by cases h; rfl⟩
  cases i with
  | newcap rd f =>
    simp only [exec, execNewcap] at h; split at h
    · exact .inl (err (by decide) h)
    · refine .inr (.inr (.inl (val rfl h fun _ _ => ⟨?_, by simp only; omega⟩)))
      simp only; split
      · exact ones_lt _
      · exact Nat.two_pow_pos _
  | ldu rd =>
    refine .inr (.inr (.inl (val rfl h fun hp _ => minimal_wf s.arg.isLt (by decide) hp.1)))
  | ldstr rd =>
    simp only [exec, execLdstr] at h; split at h
    · exact .inl (err (by decide) h)
    · split at h
      · rename_i hv
        refine .inr (.inr (.inl (val rfl h fun _ _ => ⟨?_, by simp only; omega⟩)))
        simpa using parseBits_lt hv
      · exact .inl (err (by decide) h)
      · cases h
  | copy rd rs1 => exact .inr (.inr (.inl (val rfl h fun _ hv => hv rs1)))
  | expand rd f =>
    simp only [exec, execExpand] at h; split at h
    · cases h; exact .inr (.inl rfl)
    · split at h
      · exact .inl (err (by decide) h)
      · refine .inr (.inr (.inl (val rfl h fun _ hv => ⟨?_, by simp only; omega⟩)))
        have h1 := (hv rd).1
        have h2 : 2 ^ (s.readV rd).len ≤ 2 ^ s.argNat := Nat.pow_le_pow_right (by decide) (by omega)
        simp only [ones]; split <;> omega
  | trim rd => exact .inr (.inr (.inl (val rfl h fun hp hv => minimal_wf_of_le hp (hv rd) le_rfl)))
  | getb rs1 => exact .inr (.inr (.inr (.inl ⟨rfl, res h⟩)))
  | setb rd f =>
    simp only [exec, execSetb] at h; split at h
    · cases h; exact .inr (.inl rfl)
    · refine .inr (.inr (.inl (val rfl h fun _ hv => ⟨?_, (hv rd).2⟩)))
      have h1 := (hv rd).1
      have h2 : 2 ^ s.argNat < 2 ^ (s.readV rd).len := Nat.pow_lt_pow_right (by decide) (by omega)
      simp only; split
      · exact Nat.or_lt_two_pow h1 h2
      · exact Nat.lt_of_le_of_lt Nat.and_le_left h1
  | setall rd f =>
    refine .inr (.inr (.inl (val rfl h fun _ hv => ⟨?_, (hv rd).2⟩)))
    simp only; split
    · exact ones_lt _
    · exact Nat.two_pow_pos _
  | size rs1 => exact .inr (.inr (.inr (.inl ⟨rfl, res h⟩)))
  | cmp rs1 rs2 => exact .inr (.inr (.inr (.inl ⟨rfl, res h⟩)))
  | cmpu rs1 => exact .inr (.inr (.inr (.inl ⟨rfl, res h⟩)))
  | and rd a b =>
    refine .inr (.inr (.inl (val rfl h fun _ hv => ⟨?_, Nat.max_le.2 ⟨(hv a).2, (hv b).2⟩⟩)))
    exact Nat.lt_of_le_of_lt Nat.and_le_left (lt_two_pow_max (hv a).1 (hv b).1).1
  | or rd a b =>
    refine .inr (.inr (.inl (val rfl h fun _ hv => ⟨?_, Nat.max_le.2 ⟨(hv a).2, (hv b).2⟩⟩)))
    have := lt_two_pow_max (hv a).1 (hv b).1
    exact Nat.or_lt_two_pow this.1 this.2
  | xor rd a b =>
    refine .inr (.inr (.inl (val rfl h fun _ hv => ⟨?_, Nat.max_le.2 ⟨(hv a).2, (hv b).2⟩⟩)))
    have := lt_two_pow_max (hv a).1 (hv b).1
    exact Nat.xor_lt_two_pow this.1 this.2
  | not rd a =>
    refine .inr (.inr (.inl (val rfl h fun _ hv => ⟨?_, (hv a).2⟩)))
    exact Nat.lt_of_le_of_lt (Nat.sub_le _ _) (ones_lt _)
  | shl rd a =>
    simp only [exec, execShl] at h; split at h
    · exact .inl (err (by decide) h)
    · refine .inr (.inr (.inl (val rfl h fun _ hv => ⟨?_, by simp only; omega⟩)))
      simp only [Nat.pow_add]
      exact Nat.mul_lt_mul_of_pos_right (hv a).1 (Nat.two_pow_pos _)
  | shr rd a =>
    simp only [exec, execShr] at h; split at h
    · exact .inr (.inr (.inl (val rfl h fun hp _ => Value.zero1_wf hp)))
    · refine .inr (.inr (.inl (val rfl h fun _ hv => ⟨?_, (Nat.sub_le _ _).trans (hv a).2⟩)))
      simp only
      rw [Nat.div_lt_iff_lt_mul (Nat.two_pow_pos _), ← Nat.pow_add, Nat.sub_add_cancel (by omega)]
      exact (hv a).1
  | add rd a b =>
    simp only [exec, execAdd] at h; split at h
    · exact .inl (err (by decide) h)
    · exact .inr (.inr (.inl (val rfl h fun _ hv =>
        minimal_wf (add_lt_two_pow (hv a).1 (hv b).1) (by omega) (by omega))))
  | sub rd a b =>
    simp only [exec, execSub] at h; split at h
    · exact .inr (.inr (.inl (val rfl h fun hp _ => Value.zero1_wf hp)))
    · exact .inr (.inr (.inl (val rfl h fun hp hv => minimal_wf_of_le hp (hv a) (Nat.sub_le _ _))))
  | mul rd a b =>
    simp only [exec, execMul] at h; split at h
    · exact .inr (.inr (.inl (val rfl h fun hp _ => Value.zero1_wf hp)))
    · split at h
      · exact .inl (err (by decide) h)
      · rename_i h0 _
        refine .inr (.inr (.inl (val rfl h fun _ hv =>
          minimal_wf (mul_lt_two_pow (hv a).1 (hv b).1) ?_ (by omega))))
        have := (hv a).1
        by_contra hc
        have : (s.readV a).len = 0 := by omega
        simp_all
  | div rd a b =>
    simp only [exec, execDiv] at h; split at h
    · exact .inl (err (by decide) h)
    · exact .inr (.inr (.inl (val rfl h fun hp hv => minimal_wf_of_le hp (hv a) (Nat.div_le_self _ _))))
  | mod rd a b =>
    simp only [exec, execMod] at h; split at h
    · exact .inl (err (by decide) h)
    · exact .inr (.inr (.inl (val rfl h fun hp hv => minimal_wf_of_le hp (hv a) (Nat.mod_le _ _))))
  | tostr a =>
    simp only [exec, execTostr] at h; split at h
    · exact .inl (err (by decide) h)
    · refine .inr (.inr (.inr (.inr ⟨rfl, rfl, _, h, by simp [Instr.storedBytes], fun hp hv => ?_⟩)))
      have hd := (digits_spec s.argNat (s.readV a).val (by omega)).2.2.2.2.2
      have := (minimal_wf_of_le hp (hv a) le_rfl).2
      simpa using hd.trans this
  | tobits a =>
    exact .inr (.inr (.inr (.inr ⟨rfl, rfl, _, h, by simp [Instr.storedBytes], fun _ hv => by simpa using (hv a).2⟩)))

/-- The only fault of a command is LDSTR's over an unwritten byte below CLEN (60_exceptions.md R216). -/
theorem exec_fault {i : Instr} {s : State} {r : Fault} (h : exec i s = .fault r) :
    ∃ rd j, i = .ldstr rd ∧ r = .unwrittenChar j ∧ parseBits s.cbuf s.clen.toNat 0 0 = .unwritten j := by
  cases i with
  | ldstr rd =>
    simp only [exec, execLdstr] at h; split at h
    · cases h
    · split at h
      · cases h
      · cases h
      · rename_i j hj; cases h; exact ⟨rd, j, rfl, rfl, hj⟩
  | newcap | expand | setb | shl | shr | add | sub | mul | div | mod | tostr =>
    simp only [exec, execNewcap, execExpand, execSetb, execShl, execShr, execAdd, execSub, execMul, execDiv, execMod,
      execTostr] at h
    repeat' split at h
    all_goals cases h
  | _ => cases h

end Sys2Proof.Machine
end

