-- ==== Sys2Proof/Laws/PerInstr.lean ====
section
/-! SUPPORT. The per-instruction family TableMatch: the encoding of every instruction matches its row of opcode_table.json
(30_encoding.md R86), one lemma per constructor. -/

namespace Sys2Proof.Laws.TableMatch

/-- The encoding of i matches the row of the opcode table that has its mnemonic. -/
def Statement (i : Instr) : Prop :=
  ∃ r ∈ opcodeTable, r.mnemonic = i.mnemonic ∧ encode i &&& r.mask = r.pattern

/-- What is left to check for an instruction once its row is named. -/
theorem of_row {i : Instr} (k : Nat) (hk : k < opcodeTable.length) (hm : opcodeTable[k].mnemonic = i.mnemonic)
    (hw : encode i &&& opcodeTable[k].mask = opcodeTable[k].pattern) : Statement i :=
  ⟨opcodeTable[k], List.getElem_mem hk, hm, hw⟩

theorem newcap (rd : VReg) (f : Bool) : Statement (.newcap rd f) :=
  of_row 0 (by decide) rfl (mask_rdf _ (by decide) rd f)

theorem ldu (rd : VReg) : Statement (.ldu rd) :=
  of_row 1 (by decide) rfl (mask_rd _ (by decide) rd)

theorem ldstr (rd : VReg) : Statement (.ldstr rd) :=
  of_row 2 (by decide) rfl (mask_rd _ (by decide) rd)

theorem copy (rd rs1 : VReg) : Statement (.copy rd rs1) :=
  of_row 3 (by decide) rfl (mask_r2 _ (by decide) rd rs1)

theorem expand (rd : VReg) (f : Bool) : Statement (.expand rd f) :=
  of_row 4 (by decide) rfl (mask_rdf _ (by decide) rd f)

theorem trim (rd : VReg) : Statement (.trim rd) :=
  of_row 5 (by decide) rfl (mask_rd _ (by decide) rd)

theorem getb (rs1 : VReg) : Statement (.getb rs1) :=
  of_row 6 (by decide) rfl (mask_s1 _ (by decide) rs1)

theorem setb (rd : VReg) (f : Bool) : Statement (.setb rd f) :=
  of_row 7 (by decide) rfl (mask_rdf _ (by decide) rd f)

theorem setall (rd : VReg) (f : Bool) : Statement (.setall rd f) :=
  of_row 8 (by decide) rfl (mask_rdf _ (by decide) rd f)

theorem size (rs1 : VReg) : Statement (.size rs1) :=
  of_row 9 (by decide) rfl (mask_s1 _ (by decide) rs1)

theorem cmp (rs1 rs2 : VReg) : Statement (.cmp rs1 rs2) :=
  of_row 10 (by decide) rfl (mask_s2 _ (by decide) rs1 rs2)

theorem cmpu (rs1 : VReg) : Statement (.cmpu rs1) :=
  of_row 11 (by decide) rfl (mask_s1 _ (by decide) rs1)

theorem and (rd rs1 rs2 : VReg) : Statement (.and rd rs1 rs2) :=
  of_row 12 (by decide) rfl (mask_r3 _ (by decide) rd rs1 rs2)

theorem or (rd rs1 rs2 : VReg) : Statement (.or rd rs1 rs2) :=
  of_row 13 (by decide) rfl (mask_r3 _ (by decide) rd rs1 rs2)

theorem xor (rd rs1 rs2 : VReg) : Statement (.xor rd rs1 rs2) :=
  of_row 14 (by decide) rfl (mask_r3 _ (by decide) rd rs1 rs2)

theorem not (rd rs1 : VReg) : Statement (.not rd rs1) :=
  of_row 15 (by decide) rfl (mask_r2 _ (by decide) rd rs1)

theorem shl (rd rs1 : VReg) : Statement (.shl rd rs1) :=
  of_row 16 (by decide) rfl (mask_r2 _ (by decide) rd rs1)

theorem shr (rd rs1 : VReg) : Statement (.shr rd rs1) :=
  of_row 17 (by decide) rfl (mask_r2 _ (by decide) rd rs1)

theorem add (rd rs1 rs2 : VReg) : Statement (.add rd rs1 rs2) :=
  of_row 18 (by decide) rfl (mask_r3 _ (by decide) rd rs1 rs2)

theorem sub (rd rs1 rs2 : VReg) : Statement (.sub rd rs1 rs2) :=
  of_row 19 (by decide) rfl (mask_r3 _ (by decide) rd rs1 rs2)

theorem mul (rd rs1 rs2 : VReg) : Statement (.mul rd rs1 rs2) :=
  of_row 20 (by decide) rfl (mask_r3 _ (by decide) rd rs1 rs2)

theorem div (rd rs1 rs2 : VReg) : Statement (.div rd rs1 rs2) :=
  of_row 21 (by decide) rfl (mask_r3 _ (by decide) rd rs1 rs2)

theorem mod (rd rs1 rs2 : VReg) : Statement (.mod rd rs1 rs2) :=
  of_row 22 (by decide) rfl (mask_r3 _ (by decide) rd rs1 rs2)

theorem tostr (rs1 : VReg) : Statement (.tostr rs1) :=
  of_row 23 (by decide) rfl (mask_s1 _ (by decide) rs1)

theorem tobits (rs1 : VReg) : Statement (.tobits rs1) :=
  of_row 24 (by decide) rfl (mask_s1 _ (by decide) rs1)

end Sys2Proof.Laws.TableMatch
end

