-- ==== Sys2Proof/Laws/Step.lean ====
section
/-! SUPPORT. What one step can do, by the event it takes: cited instead of unfolding step. -/

namespace Sys2Proof.Machine

/-- The event at the head of the arrival sequence is delivered. -/
theorem step_of_arrives {s : State} {e : Event} {es : List Event} (h : Arrives s e es) :
    step s = deliver e { s with arrivals := es } := by
  obtain ⟨h1, h2⟩ := h
  simp [step, takeNext, State.held_of_released h1, h2]

/-- The engine takes its turn, from the sequence or at its end. -/
theorem step_of_engineNext {s : State} {es : List Event} (h : EngineNext s es) :
    step s = engineTurn { s with arrivals := es } := by
  obtain ⟨h1, h2 | ⟨h2, rfl⟩⟩ := h
  · simp [step, takeNext, State.held_of_released h1, h2, deliver]
  · have : s = { s with arrivals := [] } := by rw [← h2]
    simp only [step, takeNext, State.held_of_released h1, h2]
    rw [← this]

/-- While the reset input is asserted, a step acts on the reset state. -/
theorem step_of_asserted {s : State} (h : s.resetIn = true) : step s = takeNext s.clear := by
  simp [step, State.held_of_asserted h]

/-- A step is a delivery or, at the end of the sequence, the engine's turn. -/
theorem step_eq (s : State) : step s = match s.arrivals with
    | [] => engineTurn s.held
    | e :: es => deliver e { s.held with arrivals := es } := by
  cases h : s.arrivals <;> simp only [step, takeNext, State.held_arrivals, h]

/-- When an access is well formed (20_memory.md R53, R54, R56). -/
theorem accessOk_iff (p : Params) (off width : Nat) : accessOk p off width = true ↔
    (width = 1 ∨ width = 2 ∨ width = 4 ∨ width = 8) ∧ off % width = 0 ∧
      (off < 0x1000 → width = 8) ∧ (0x1000 ≤ off → off + width ≤ 0x1000 + p.cbufSize) := by
  unfold accessOk
  by_cases h : off < 0x1000
  · simp [h, or_assoc, and_assoc]
  · simp [h, or_assoc, and_assoc]; omega

/-- A register access: 8 bytes at a multiple of 8 below 0x1000 (20_memory.md R54). -/
theorem accessOk_register (p : Params) {off : Nat} (h : off < 0x1000) (h8 : off % 8 = 0) : accessOk p off 8 = true := by
  rw [accessOk_iff]; omega

/-- The engine's turn while a legal command is in flight. -/
theorem engineTurn_of_decode {s : State} {i : Instr} (hb : s.busy = true) (h : decode s.cmd = .ok i) :
    engineTurn s = exec i s := by
  simp [engineTurn, hb, complete, h]

/-- The engine's turn: idle, a decoded command, or an illegal one. -/
theorem engineTurn_next {s t : State} (h : engineTurn s = .next t) :
    (s.busy = false ∧ t = s) ∨ (s.busy = true ∧ ∃ i, decode s.cmd = .ok i ∧ exec i s = .next t) ∨
      (s.busy = true ∧ t = failedWith s .illegalCommand) := by
  unfold engineTurn at h
  split at h
  · rename_i hb
    unfold complete at h
    split at h
    · exact .inr (.inl ⟨hb, _, ‹_›, h⟩)
    · cases h; exact .inr (.inr ⟨hb, rfl⟩)
  · cases h; exact .inl ⟨by simp_all, rfl⟩

/-- What a host read leaves: the same BIE, an answer, and perhaps one more free value drawn (20_memory.md R59). -/
theorem hostRead_next {off width : Nat} {s t : State} (h : hostRead off width s = .next t) :
    t = { s with response := t.response, draws := t.draws } := by
  unfold hostRead at h
  split at h
  · split at h
    · cases h; unfold readRegister State.answerResult; split <;> (try split) <;> rfl
    · unfold readCbuf at h; split at h
      · cases h; rfl
      · split at h <;> cases h; rfl
  · cases h; rfl

/-- What a host write can do: nothing but an answer, or one register write, or bytes of CBUF. -/
theorem hostWrite_next {off width : Nat} {d : Word64} {s t : State} (h : hostWrite off width d s = .next t) :
    (∃ b, t = s.respond b none) ∨
    (s.resetIn = false ∧ off < 0x1000 ∧ width = 8 ∧ t = (writeRegister off d s).respond false none) ∨
    (s.resetIn = false ∧ 0x1000 ≤ off ∧ off + width ≤ 0x1000 + s.params.cbufSize ∧
      t = (s.writeCbuf (off - 0x1000) width d).respond false none) := by
  unfold hostWrite at h
  split at h
  · rename_i hok
    rw [accessOk_iff] at hok
    cases h
    split
    · exact .inl ⟨_, rfl⟩
    · have hr : s.resetIn = false := by simp_all
      split
      · exact .inr (.inl ⟨hr, ‹_›, hok.2.2.1 ‹_›, rfl⟩)
      · exact .inr (.inr ⟨hr, by omega, hok.2.2.2 (by omega), rfl⟩)
  · cases h; exact .inl ⟨_, rfl⟩

/-- What a register write can do (20_memory.md R52). -/
theorem writeRegister_cases (off : Nat) (d : Word64) (s : State) :
    (off = 0x00 ∧ writeRegister off d s = s.writeCmd d) ∨ (off = 0x08 ∧ writeRegister off d s = s.writeArg d) ∨
    (off = 0x18 ∧ writeRegister off d s = s.writeStatus d) ∨ (off = 0x20 ∧ writeRegister off d s = s.writeCtrl d) ∨
    (off = 0x28 ∧ writeRegister off d s = s.writeClen d) ∨ writeRegister off d s = s := by
  unfold writeRegister; split <;> simp

end Sys2Proof.Machine
end

