-- ==== Sys2Proof/Tests/Slice0.lean ====
section
/-! SUPPORT. The model's own tests: ill-formed terms refused, written-out command words, test vectors of
95_test_vectors.md (each test names its vector), and a state that meets the hypotheses of each statement. -/

namespace Sys2Proof.Machine.Test

/-! ### Helpers -/

/-- The reset state with ARG and some value registers set: the "before" column of 95_test_vectors.md. -/
def before (arg : Nat) (vs : List (VReg × Value)) : State :=
  vs.foldl (fun s x => s.writeV x.1 x.2) { State.reset with arg := BitVec.ofNat 64 arg }

/-- The same with a text in CBUF and CLEN. -/
def beforeText (arg clen : Nat) (text : List Byte) (vs : List (VReg × Value)) : State :=
  { before arg vs with cbuf := Mem.writeBytes [] 0 text, clen := BitVec.ofNat 64 clen }

/-- The command value w, issued in s, is completed by the engine's next step. -/
def complete1 (w : Word64) (s : State) : Outcome := step { s with cmd := w, busy := true }

/-- What a test checks of a next state. -/
def after (o : Outcome) (p : State → Bool) : Bool :=
  match o with
  | .next t => p t
  | .fault _ => false
  | .refused _ => false

/-- Only the register rd changed, to x, and the command succeeded. -/
def gives (w : Word64) (s : State) (rd : VReg) (x : Value) : Bool :=
  after (complete1 w s) fun t => t == valueWritten { s with cmd := w, busy := true } rd x

/-- RESULT became r and the command succeeded. -/
def answers (w : Word64) (s : State) (r : Word64) : Bool :=
  after (complete1 w s) fun t => t == resultWritten { s with cmd := w, busy := true } r

/-- The command failed with e and nothing else changed. -/
def fails (w : Word64) (s : State) (e : ErrCode) : Bool :=
  after (complete1 w s) fun t => t == failedWith { s with cmd := w, busy := true } e

/-- The command succeeded and changed nothing else. -/
def keeps (w : Word64) (s : State) : Bool :=
  after (complete1 w s) fun t => t == nothingWritten { s with cmd := w, busy := true }

/-- CLEN and the bytes of CBUF from CBUF[0] after the command, which succeeded. -/
def prints (w : Word64) (s : State) (clen : Nat) (text : List Byte) : Bool :=
  after (complete1 w s) fun t => t.err == .none && t.clen == BitVec.ofNat 64 clen && t.cbuf == Mem.writeBytes [] 0 text

/-- What the one event e leaves. -/
def on (e : Event) (s : State) (p : State → Bool) : Bool := after (step { s with arrivals := [e] }) p

/-- The read e answers the data d, without a bus error. -/
def reads (e : Event) (s : State) (d : Word64) : Bool := on e s fun t => t.response == some ⟨false, some d⟩

/-- The bytes of an ASCII text, as in 00_scope.md R16. -/
def ascii (s : List Nat) : List Byte := s.map (BitVec.ofNat 8)

/-! ### Ill-formed terms (WellFormed.lean, Safety.lean) -/

/- One command value for each condition of 30_encoding.md R84, and one for each format's must-be-zero column of R82. -/

theorem test_illegal_highBits : legalCommand 0x0000000100000102#64 = false ∧ legalCommand 0x8000000000000102#64 = false := by decide

theorem test_illegal_reservedBits : legalCommand 0x0000000000200102#64 = false ∧ legalCommand 0x0000000080000102#64 = false := by decide

theorem test_illegal_opcode : legalCommand 0x00#64 = false ∧ legalCommand 0x42#64 = false ∧ legalCommand 0x43#64 = false ∧
    legalCommand 0xFF#64 = false ∧ legalCommand 0x05#64 = false := by decide

theorem test_illegal_fields : [0x100102#64, 0x1102#64, 0x10033#64, 0x100050#64, 0x21120#64, 0x101201#64, 0x11201#64, 0x1160#64,
    0x101015#64].all (fun c => !legalCommand c) = true := by decide

theorem test_legal_command : legalCommand 0x0000000000000111#64 = true ∧ matchesTable 0x0000000000000111#64 = true ∧
    matchesTable 0x0000000000100111#64 = false := by decide

/- One set of parameters for each check of Params.legal (00_scope.md R8, R9; 20_memory.md R50). -/

theorem test_params_illegal : ¬Params.legal ⟨63, 64, 0⟩ ∧ ¬Params.legal ⟨0x10000000000000000, 0x10000000000000000, 0⟩ ∧ ¬Params.legal ⟨72, 64, 0⟩ ∧
    ¬Params.legal ⟨64, 66, 0⟩ ∧ ¬Params.legal ⟨64, 64, 0x800⟩ := by decide

theorem test_params_legal : Params.legal ⟨64, 64, 0x1000⟩ ∧ Params.legal ⟨0xFFFFFFFFFFFFFFFF, 0x10000000000000000, 0⟩ := by decide

theorem test_value_illformed : ¬Value.wf ⟨64, 64, 0⟩ ⟨3, 8⟩ ∧ ¬Value.wf ⟨64, 64, 0⟩ ⟨65, 0⟩ ∧ Value.wf ⟨64, 64, 0⟩ ⟨3, 7⟩ ∧ Value.wf ⟨64, 64, 0⟩ ⟨0, 0⟩ := by decide

theorem test_mem_illformed : ¬Mem.wf [(1, 0#8), (1, 0#8)] ∧ ¬Mem.wf [(2, 0#8), (1, 0#8)] ∧ Mem.wf [(1, 0#8), (2, 0#8)] := by decide

theorem test_inv_illformed : ¬State.handshakeOk { State.reset with busy := true, done := true } ∧
    ¬State.heldInReset { State.reset with resetIn := true, arg := 1 } ∧
    ¬State.cbufWf { State.reset with cbuf := [(4096, 0#8)] } := by decide

/-! ### Decoding (30_encoding.md R80, R81, R89; T-DEC of 95_test_vectors.md) -/

theorem test_decode_newcap : decode 0x0000000000100201#64 = .ok (.newcap 2 true) := by decide

theorem test_decode_ldu : decode 0x0000000000000102#64 = .ok (.ldu 1) := by decide

theorem test_decode_ldstr : decode 0x0000000000000103#64 = .ok (.ldstr 1) := by decide

theorem test_decode_copy : decode 0x0000000000001404#64 = .ok (.copy 4 1) := by decide

theorem test_decode_expand : decode 0x0000000000100110#64 = .ok (.expand 1 true) := by decide

theorem test_decode_trim : decode 0x0000000000000511#64 = .ok (.trim 5) := by decide

theorem test_decode_getb : decode 0x0000000000001012#64 = .ok (.getb 1) := by decide

theorem test_decode_setb : decode 0x0000000000100313#64 = .ok (.setb 3 true) := by decide

theorem test_decode_setall : decode 0x0000000000100114#64 = .ok (.setall 1 true) := by decide

theorem test_decode_size : decode 0x0000000000003015#64 = .ok (.size 3) := by decide

theorem test_decode_cmp : decode 0x0000000000021020#64 = .ok (.cmp 1 2) := by decide

theorem test_decode_cmpu : decode 0x0000000000002021#64 = .ok (.cmpu 2) := by decide

theorem test_decode_and : decode 0x0000000000021330#64 = .ok (.and 3 1 2) := by decide

theorem test_decode_or : decode 0x0000000000021331#64 = .ok (.or 3 1 2) := by decide

theorem test_decode_xor : decode 0x0000000000055532#64 = .ok (.xor 5 5 5) := by decide

theorem test_decode_not : decode 0x0000000000001233#64 = .ok (.not 2 1) := by decide

theorem test_decode_shl : decode 0x0000000000001240#64 = .ok (.shl 2 1) := by decide

theorem test_decode_shr : decode 0x0000000000001241#64 = .ok (.shr 2 1) := by decide

theorem test_decode_add : decode 0x0000000000021350#64 = .ok (.add 3 1 2) := by decide

theorem test_decode_sub : decode 0x0000000000021351#64 = .ok (.sub 3 1 2) := by decide

theorem test_decode_mul : decode 0x0000000000021352#64 = .ok (.mul 3 1 2) := by decide

theorem test_decode_div : decode 0x0000000000021353#64 = .ok (.div 3 1 2) := by decide

theorem test_decode_mod : decode 0x00000000000DEF54#64 = .ok (.mod 15 14 13) := by decide

theorem test_decode_tostr : decode 0x0000000000003060#64 = .ok (.tostr 3) := by decide

theorem test_decode_tobits : decode 0x0000000000003061#64 = .ok (.tobits 3) := by decide

theorem test_decode_illegal : decode 0x0000000100000102#64 = .error .highBits ∧ decode 0x0000000000200102#64 = .error .reservedBits ∧
    decode 0x42#64 = .error (.reservedOpcode 0x42) ∧ decode 0x100050#64 = .error (.fieldNotZero 0x50) := by decide

theorem test_decodeTableWord : decodeTableWord 64 0x21350 = some (.add 3 1 2) ∧ decodeTableWord 32 0x21350 = some (.add 3 1 2) ∧
    decodeTableWord 64 0x42 = none := by decide

/-! ### Construction (T-CON) -/

theorem test_newcap_T_CON_3 : gives 0x100201#64 (before 5 []) 2 ⟨5, 31⟩ = true := by decide

theorem test_newcap_T_CON_6 : fails 0x100201#64 (before 4097 [(2, ⟨3, 5⟩)]) .overflow = true := by decide

theorem test_ldu_T_CON_8 : gives 0x102#64 (before 0 []) 1 ⟨1, 0⟩ = true := by decide

theorem test_ldu_T_CON_13 : gives 0x102#64 (before 0xFFFFFFFFFFFFFFFF []) 1 ⟨64, 0xFFFFFFFFFFFFFFFF⟩ = true := by decide

theorem test_ldstr_T_CON_15 : gives 0x103#64 (beforeText 0 4 (ascii [0x30, 0x30, 0x30, 0x31]) []) 1 ⟨4, 1⟩ = true := by decide

theorem test_ldstr_T_CON_20 : fails 0x103#64 (beforeText 0 4 (ascii [0x30, 0x30, 0x31, 0x32]) [(1, ⟨3, 5⟩)]) .invalidFormat = true := by decide

theorem test_copy_T_CON_24 : gives 0x1404#64 (before 0 [(1, ⟨8, 3⟩)]) 4 ⟨8, 3⟩ = true := by decide

/-! ### Resizing and indexed access (T-STR) -/

theorem test_expand_T_STR_1 : gives 0x100110#64 (before 6 [(1, ⟨3, 5⟩)]) 1 ⟨6, 61⟩ = true := by decide

theorem test_expand_T_STR_10 : keeps 0x100110#64 (before 4000 [(1, ⟨4096, 0⟩)]) = true := by decide

theorem test_trim_T_STR_15 : gives 0x511#64 (before 0 [(5, ⟨100, 1⟩)]) 5 ⟨1, 1⟩ = true := by decide

theorem test_trim_T_STR_13 : gives 0x511#64 (before 0 []) 5 ⟨1, 0⟩ = true := by decide

theorem test_getb_T_STR_23 : answers 0x1012#64 (before 64 [(1, ⟨65, 0x10000000000000000⟩)]) 1 = true := by decide

theorem test_getb_T_STR_21 : answers 0x1012#64 (before 0xFFFFFFFFFFFFFFFF [(1, ⟨4, 10⟩)]) 0 = true := by decide

theorem test_setb_T_STR_25 : gives 0x313#64 (before 3 [(3, ⟨4, 10⟩)]) 3 ⟨4, 2⟩ = true := by decide

theorem test_setb_T_STR_27 : keeps 0x100313#64 (before 4 [(3, ⟨4, 10⟩)]) = true := by decide

theorem test_setall_T_STR_30 : gives 0x100114#64 (before 0 [(1, ⟨5, 0⟩)]) 1 ⟨5, 31⟩ = true := by decide

theorem test_setall_T_STR_31 : gives 0x114#64 (before 0 [(1, ⟨5, 31⟩)]) 1 ⟨5, 0⟩ = true := by decide

theorem test_size_T_STR_36 : answers 0x3015#64 (before 0 [(3, ⟨8, 3⟩)]) 8 = true := by decide

/-! ### Comparison (T-CMP) -/

theorem test_cmp_T_CMP_1 : answers 0x21020#64 (before 0 [(1, ⟨4, 8⟩), (2, ⟨8, 8⟩)]) 0 = true := by decide

theorem test_cmp_T_CMP_3 : answers 0x21020#64 (before 0 [(1, ⟨2, 3⟩), (2, ⟨3, 5⟩)]) 1 = true := by decide

theorem test_cmpu_T_CMP_13 : answers 0x2021#64 (before 0xFFFFFFFFFFFFFFFF [(2, ⟨65, 0x10000000000000000⟩)]) 2 = true := by decide

theorem test_cmpu_T_CMP_10 : answers 0x2021#64 (before 7 [(2, ⟨3, 5⟩)]) 1 = true := by decide

/-! ### Bitwise logic (T-BIT) -/

theorem test_and_T_BIT_1 : gives 0x21330#64 (before 0 [(1, ⟨4, 12⟩), (2, ⟨2, 3⟩)]) 3 ⟨4, 0⟩ = true := by decide

theorem test_or_T_BIT_5 : gives 0x21331#64 (before 0 [(1, ⟨4, 12⟩), (2, ⟨2, 3⟩)]) 3 ⟨4, 15⟩ = true := by decide

theorem test_xor_T_BIT_9 : gives 0x55532#64 (before 0 [(5, ⟨7, 117⟩)]) 5 ⟨7, 0⟩ = true := by decide

theorem test_not_T_BIT_12 : gives 0x1233#64 (before 0 [(1, ⟨7, 10⟩)]) 2 ⟨7, 117⟩ = true := by decide

theorem test_not_T_BIT_17 : gives 0x1133#64 (before 0 [(1, ⟨4, 9⟩)]) 1 ⟨4, 6⟩ = true := by decide

/-! ### Shifts (T-SHF) -/

theorem test_shl_T_SHF_3 : gives 0x1240#64 (before 3 [(1, ⟨1, 0⟩)]) 2 ⟨4, 0⟩ = true := by decide

theorem test_shl_T_SHF_9 : fails 0x1240#64 (before 0xFFFFFFFFFFFFFFFF [(1, ⟨3, 5⟩), (2, ⟨3, 5⟩)]) .overflow = true := by decide

theorem test_shr_T_SHF_17 : gives 0x1241#64 (before 1 [(1, ⟨8, 3⟩)]) 2 ⟨7, 1⟩ = true := by decide

theorem test_shr_T_SHF_11 : gives 0x1241#64 (before 5 [(1, ⟨5, 20⟩)]) 2 ⟨1, 0⟩ = true := by decide

/-! ### Arithmetic (T-ADD, T-MUL) -/

theorem test_add_T_ADD_4 : gives 0x21350#64 (before 0 [(1, ⟨64, 0xFFFFFFFFFFFFFFFF⟩), (2, ⟨1, 1⟩)]) 3 ⟨65, 0x10000000000000000⟩ = true := by decide

theorem test_add_T_ADD_8 : fails 0x21350#64 (before 0 [(1, ⟨4096, 0⟩), (2, ⟨1, 0⟩), (3, ⟨3, 5⟩)]) .overflow = true := by decide

theorem test_sub_T_ADD_9 : gives 0x21351#64 (before 0 [(1, ⟨4, 8⟩), (2, ⟨2, 3⟩)]) 3 ⟨3, 5⟩ = true := by decide

theorem test_sub_T_ADD_10 : gives 0x21351#64 (before 0 [(1, ⟨2, 3⟩), (2, ⟨4, 8⟩), (3, ⟨3, 5⟩)]) 3 ⟨1, 0⟩ = true := by decide

theorem test_mul_T_MUL_3 : gives 0x21352#64 (before 0 [(1, ⟨4096, 0⟩), (2, ⟨4096, 5⟩)]) 3 ⟨1, 0⟩ = true := by decide

theorem test_mul_T_MUL_8 : fails 0x21352#64 (before 0 [(1, ⟨2049, 1⟩), (2, ⟨2048, 1⟩), (3, ⟨3, 5⟩)]) .overflow = true := by decide

theorem test_div_T_MUL_9 : gives 0x21353#64 (before 0 [(1, ⟨7, 100⟩), (2, ⟨3, 7⟩)]) 3 ⟨4, 14⟩ = true := by decide

theorem test_div_T_MUL_16 : fails 0x21353#64 (before 0 [(1, ⟨7, 100⟩), (2, ⟨8, 0⟩), (3, ⟨3, 5⟩)]) .divisionByZero = true := by decide

theorem test_mod_T_MUL_10 : gives 0x21454#64 (before 0 [(1, ⟨7, 100⟩), (2, ⟨3, 7⟩)]) 4 ⟨2, 2⟩ = true := by decide

theorem test_mod_T_MUL_13 : gives 0x21354#64 (before 0 [(1, ⟨8, 3⟩), (2, ⟨3, 5⟩)]) 3 ⟨2, 3⟩ = true := by decide

/-! ### Conversion (T-CNV) -/

theorem test_tostr_T_CNV_16 : prints 0x1060#64 (beforeText 10 6 (ascii [0x61, 0x62, 0x63, 0x64, 0x65, 0x66]) [(1, ⟨1, 0⟩)]) 1
    (ascii [0x30, 0x62, 0x63, 0x64, 0x65, 0x66]) = true := by decide

theorem test_tostr_T_CNV_13 : fails 0x1060#64 (beforeText 37 3 (ascii [0x61, 0x62, 0x63]) [(1, ⟨7, 100⟩)]) .invalidArgument = true := by decide

theorem test_tobits_T_CNV_18 : prints 0x3061#64 (before 0 [(3, ⟨5, 3⟩)]) 5 (ascii [0x30, 0x30, 0x30, 0x31, 0x31]) = true := by decide

theorem test_tobits_T_CNV_19 : prints 0x3061#64 (beforeText 0 3 (ascii [0x61, 0x62, 0x63]) []) 0 (ascii [0x61, 0x62, 0x63]) = true := by decide

/-! ### Illegal commands, the host interface, reset (T-DEC, T-HST) -/

theorem test_illegal_T_DEC_1 : fails 0x00#64 (before 0 [(1, ⟨3, 5⟩)]) .illegalCommand = true := by decide

theorem test_read_T_HST_1 : reads (.read 0x30 8) State.reset 0x0000000142494E54#64 = true := by decide

theorem test_read_T_HST_3 : reads (.read 0x38 8) State.reset 0x1000#64 = true ∧ reads (.read 0x40 8) State.reset 0x1000#64 = true := by decide

theorem test_write_T_HST_6 : on (.write 0x30 8 0) State.reset (fun t => t == { State.reset with response := some ⟨false, none⟩ }) = true := by decide

theorem test_busError_T_HST_9 : on (.read 0x1C 8) State.reset (fun t => t == { State.reset with response := some ⟨true, some 0⟩ }) = true := by decide

theorem test_busError_T_HST_10 : on (.write 0x0C 4 5) State.reset (fun t => t == { State.reset with response := some ⟨true, none⟩ }) = true := by decide

theorem test_busError_T_HST_14 : on (.write 0x2000 1 0x30) State.reset (fun t => t == { State.reset with response := some ⟨true, none⟩ }) = true := by decide

theorem test_cbuf_T_HST_11 : on (.write 0x1000 8 0x0000000031303130#64) State.reset (fun t =>
    t.cbuf == Mem.writeBytes [] 0 (ascii [0x30, 0x31, 0x30, 0x31, 0, 0, 0, 0])) = true := by decide

theorem test_cbuf_T_HST_12 : reads (.read 0x1000 2) (beforeText 0 0 (ascii [0x30, 0x31, 0x30, 0x31, 0, 0, 0, 0]) []) 0x3130#64 = true := by decide

theorem test_cbuf_T_HST_16 : step { State.reset with arrivals := [.read 0x1000 1] } = .fault (.unwrittenRead 0) := rfl

theorem test_issue_T_HST_17 : on (.write 0x00 8 0x102) (before 5 []) (fun t => t.statusWord == 0x1#64 && t.cmd == 0x102) = true := by decide

theorem test_lost_T_HST_19_20 : on (.write 0x00 8 0x202) { before 5 [] with cmd := 0x102, busy := true } (fun t =>
    t.statusWord == 0x5#64 && t.cmd == 0x102) = true ∧
    on .engine { before 5 [] with cmd := 0x102, busy := true, cmdLost := true } (fun t =>
    t.statusWord == 0x6#64 && t.readV 1 == ⟨3, 5⟩ && t.readV 2 == ⟨0, 0⟩) = true := by decide

theorem test_status_T_HST_22 : on (.write 0x18 8 0xF01) { State.reset with done := true, err := .divisionByZero } (fun t => t.statusWord == 0x302#64) = true := by decide

theorem test_dropped_T_HST_23 : on (.write 0x08 8 9) { before 5 [] with cmd := 0x102, busy := true } (fun t => t.arg == 5) = true ∧
    on (.write 0x28 8 3) { before 5 [] with cmd := 0x102, busy := true } (fun t => t.clen == 0) = true ∧
    on (.write 0x1000 1 0x31) { before 5 [] with cmd := 0x102, busy := true } (fun t => t.cbuf == []) = true := by decide

theorem test_busy_T_HST_25 : reads (.read 0x00 8) { State.reset with cmd := 0x1015, busy := true } 0x1015#64 = true := by decide

theorem test_retry_T_HST_27 : on (.write 0x00 8 0x1060) { before 10 [(1, ⟨7, 100⟩)] with done := true, err := .invalidArgument } (fun t =>
    t.statusWord == 0x201#64) = true := by decide

theorem test_irq_T_HST_31 : on (.write 0x00 8 0x102) { State.reset with ie := true, done := true } (fun t => !t.irq) = true ∧
    on .engine { State.reset with ie := true, cmd := 0x102, busy := true } (fun t => t.irq) = true := by decide

theorem test_ctrl_T_HST_32 : on (.write 0x20 8 0x5) { State.reset with ie := true } (fun t => t.ctrlWord == 0x1#64) = true := by decide

theorem test_softReset_T_HST_33 : on (.write 0x20 8 0x3)
    { beforeText 7 4 (ascii [1, 2, 3, 4]) [(1, ⟨3, 5⟩)] with ie := true, busy := true, cmd := 0x11250 }
    (fun t => t == { State.reset with response := some ⟨false, none⟩ }) = true := by decide

theorem test_reset_abandons : on (.resetLine true) { before 7 [(1, ⟨3, 5⟩)] with busy := true, cmd := 0x102 } (fun t =>
    t == { State.reset with resetIn := true }) = true := by decide

theorem test_windowOffset : windowOffset ⟨64, 64, 0x4000⟩ 0x4018 = some 0x18 ∧ windowOffset ⟨64, 64, 0x4000⟩ 0x503F = some 0x103F ∧
    windowOffset ⟨64, 64, 0x4000⟩ 0x5040 = none ∧ windowOffset ⟨64, 64, 0x4000⟩ 0x3FFF = none := by decide

theorem test_withFetchWord : after (step (State.reset.withFetchWord 64 0x21350)) (fun t => t.readV 3 == ⟨1, 0⟩ && t.cmd == 0x21350 && t.done) = true := by decide

theorem test_pseudo_ldu : programEvents (Pseudo.ldu 1 5).lines = [.write 0x08 8 5, .write 0x00 8 0x102, .engine, .read 0x18 8] := by decide

theorem test_commandText : commandText (.add 3 1 2) = "add v3, v1, v2" ∧ commandText (.newcap 2 true) = "newcap v2, 1" := by decide


/-! ### A state that meets the hypotheses of each statement, one for each clause -/

/-- A busy reset state of the smallest parameters (MAX_BITS = CBUF_SIZE = 64) with the command w in flight. -/
def small (w : Word64) (es : List Event) : State :=
  { State.resetOf ⟨64, 64, 0⟩ with cmd := w, busy := true, arrivals := es }

/-- An idle reset state with the events es to arrive. -/
def idle (es : List Event) : State := { State.reset with arrivals := es }

/-- A state of the smallest parameters with a text of n characters '1' and CLEN = clen. -/
def ones64 (n clen : Nat) : State :=
  { State.resetOf ⟨64, 64, 0⟩ with
    cbuf := Mem.writeBytes [] 0 (List.replicate n 0x31#8), clen := BitVec.ofNat 64 clen }

theorem witness_EncodeOfDecode :
    decode 0x102#64 = .ok (.ldu 1) := by decide

theorem witness_StepRunsDecodedCommand :
    EngineNext (small 0x102 [.engine]) [] ∧ EngineNext (small 0x102 []) [] ∧
    (small 0x102 []).busy = true ∧ decode (small 0x102 []).cmd = .ok (.ldu 1) := ⟨⟨rfl, .inl rfl⟩, ⟨rfl, .inr ⟨rfl, rfl⟩⟩, rfl, by decide⟩

theorem witness_IllegalCommandCompletes :
    (small 0x0 []).busy = true ∧ legalCommand (small 0x0 []).cmd = false := by decide

theorem witness_EngineIdleKeepsState :
    EngineNext (idle [.engine]) [] ∧ (idle [.engine]).busy = false := ⟨⟨rfl, .inl rfl⟩, rfl⟩

theorem witness_NewcapMeaning :
    (before 4096 []).arg.toNat ≤ (before 4096 []).params.maxBits ∧ (before 4097 []).params.maxBits < (before 4097 []).arg.toNat := by decide

theorem witness_LduMeaning :
    State.reset.params.legal := by decide

theorem witness_LdstrMeaning_parses :
    (ones64 64 64).clen.toNat ≤ (ones64 64 64).params.maxBits ∧
    ∀ i, i < (ones64 64 64).clen.toNat → (ones64 64 64).cbufByte i = some 0x30#8 ∨ (ones64 64 64).cbufByte i = some 0x31#8 := by decide

theorem witness_LdstrMeaning_overflow :
    (ones64 0 65).params.maxBits < (ones64 0 65).clen.toNat := by decide

theorem witness_LdstrMeaning_badChar :
    (beforeText 0 2 (ascii [0x31, 0x32]) []).clen.toNat ≤ 4096 ∧ 1 < (beforeText 0 2 (ascii [0x31, 0x32]) []).clen.toNat ∧
    (∀ i, i < 1 → (beforeText 0 2 (ascii [0x31, 0x32]) []).cbufByte i = some 0x30#8 ∨
      (beforeText 0 2 (ascii [0x31, 0x32]) []).cbufByte i = some 0x31#8) ∧
    (beforeText 0 2 (ascii [0x31, 0x32]) []).cbufByte 1 = some 0x32#8 ∧ (0x32#8 : Byte) ≠ 0x30#8 ∧ (0x32#8 : Byte) ≠ 0x31#8 := by decide

theorem witness_LdstrMeaning_unwritten :
    (ones64 63 64).clen.toNat ≤ (ones64 63 64).params.maxBits ∧ 63 < (ones64 63 64).clen.toNat ∧
    (∀ i, i < 63 → (ones64 63 64).cbufByte i = some 0x30#8 ∨ (ones64 63 64).cbufByte i = some 0x31#8) ∧
    (ones64 63 64).cbufByte 63 = none := by decide

theorem witness_CopyMeaning :
    ∃ rd rs1 : VReg, rd = rs1 := ⟨1, 1, rfl⟩

theorem witness_ExpandMeaning_noop :
    (before 3 [(1, ⟨3, 5⟩)]).arg.toNat ≤ ((before 3 [(1, ⟨3, 5⟩)]).readV 1).len := by decide

theorem witness_ExpandMeaning_overflow :
    ((before 4097 [(1, ⟨3, 5⟩)]).readV 1).len < (before 4097 [(1, ⟨3, 5⟩)]).arg.toNat ∧ (before 4097 [(1, ⟨3, 5⟩)]).params.maxBits < (before 4097 [(1, ⟨3, 5⟩)]).arg.toNat := by decide

theorem witness_ExpandMeaning_grows :
    ((before 4096 [(1, ⟨3, 5⟩)]).readV 1).len < (before 4096 [(1, ⟨3, 5⟩)]).arg.toNat ∧ (before 4096 [(1, ⟨3, 5⟩)]).arg.toNat ≤ (before 4096 [(1, ⟨3, 5⟩)]).params.maxBits ∧
    ((before 4096 [(1, ⟨3, 5⟩)]).readV 1).val < 2 ^ ((before 4096 [(1, ⟨3, 5⟩)]).readV 1).len := by decide

theorem witness_SetbMeaning :
    ((before 3 [(1, ⟨3, 5⟩)]).readV 1).len ≤ (before 3 [(1, ⟨3, 5⟩)]).arg.toNat ∧ (before 2 [(1, ⟨3, 5⟩)]).arg.toNat < ((before 2 [(1, ⟨3, 5⟩)]).readV 1).len ∧
    ((before 2 [(1, ⟨3, 5⟩)]).readV 1).val < 2 ^ ((before 2 [(1, ⟨3, 5⟩)]).readV 1).len := by decide

theorem witness_SizeMeaning :
    (before 0 [(1, ⟨3, 5⟩)]).params.legal ∧ ((before 0 [(1, ⟨3, 5⟩)]).readV 1).wf (before 0 [(1, ⟨3, 5⟩)]).params ∧ (State.reset.readV 1).wf State.reset.params := by decide

theorem witness_BitwiseMeaning :
    ∃ p, p ∈ [(Instr.and 3 1 2, Bool.and, 0x30), (Instr.or 3 1 2, Bool.or, 0x31), (Instr.xor 3 1 2, Bool.xor, 0x32)] := ⟨_, List.mem_cons_self⟩

theorem witness_NotMeaning :
    ((before 0 [(1, ⟨3, 5⟩)]).readV 1).val < 2 ^ ((before 0 [(1, ⟨3, 5⟩)]).readV 1).len ∧ (State.reset.readV 1).val < 2 ^ (State.reset.readV 1).len := by decide

theorem witness_ShlMeaning :
    ((before 4093 [(1, ⟨3, 5⟩)]).readV 1).len + (before 4093 [(1, ⟨3, 5⟩)]).arg.toNat ≤ (before 4093 [(1, ⟨3, 5⟩)]).params.maxBits ∧
    (before 4094 [(1, ⟨3, 5⟩)]).params.maxBits < ((before 4094 [(1, ⟨3, 5⟩)]).readV 1).len + (before 4094 [(1, ⟨3, 5⟩)]).arg.toNat := by decide

theorem witness_ShrMeaning :
    ((before 3 [(1, ⟨3, 5⟩)]).readV 1).len ≤ (before 3 [(1, ⟨3, 5⟩)]).arg.toNat ∧ (before 2 [(1, ⟨3, 5⟩)]).arg.toNat < ((before 2 [(1, ⟨3, 5⟩)]).readV 1).len := by decide

theorem witness_ShiftRoundTrip :
    ((before 4093 [(1, ⟨3, 5⟩)]).readV 1).val < 2 ^ ((before 4093 [(1, ⟨3, 5⟩)]).readV 1).len ∧
    ((before 4093 [(1, ⟨3, 5⟩)]).readV 1).len + (before 4093 [(1, ⟨3, 5⟩)]).arg.toNat ≤ (before 4093 [(1, ⟨3, 5⟩)]).params.maxBits ∧ 1 ≤ ((before 4093 [(1, ⟨3, 5⟩)]).readV 1).len ∧
    ((before 4096 []).readV 1).val < 2 ^ ((before 4096 []).readV 1).len ∧ ¬1 ≤ ((before 4096 []).readV 1).len ∧
    ((before 4096 []).readV 1).len + (before 4096 []).arg.toNat ≤ (before 4096 []).params.maxBits := by decide

theorem witness_AddMeaning :
    max ((before 0 [(1, ⟨4095, 5⟩)]).readV 1).len ((before 0 [(1, ⟨4095, 5⟩)]).readV 2).len + 1 ≤ (before 0 [(1, ⟨4095, 5⟩)]).params.maxBits ∧
    (before 0 [(1, ⟨4096, 5⟩)]).params.maxBits < max ((before 0 [(1, ⟨4096, 5⟩)]).readV 1).len ((before 0 [(1, ⟨4096, 5⟩)]).readV 2).len + 1 := by decide

theorem witness_SubMeaning :
    ((before 0 [(1, ⟨3, 5⟩)]).readV 2).val < ((before 0 [(1, ⟨3, 5⟩)]).readV 1).val ∧ ((before 0 [(1, ⟨3, 5⟩)]).readV 1).val ≤ ((before 0 [(1, ⟨3, 5⟩)]).readV 1).val := by decide

theorem witness_AddSubLaws :
    max ((before 0 [(1, ⟨4095, 5⟩)]).readV 1).len ((before 0 [(1, ⟨4095, 5⟩)]).readV 2).len + 1 ≤ (before 0 [(1, ⟨4095, 5⟩)]).params.maxBits ∧ (3 : VReg) ≠ 2 := by decide

theorem witness_MulMeaning_zero :
    ((before 0 [(1, ⟨3, 5⟩)]).readV 1).val = 0 ∨ ((before 0 [(1, ⟨3, 5⟩)]).readV 2).val = 0 := by decide

theorem witness_MulMeaning_overflow :
    ((before 0 [(1, ⟨2049, 5⟩), (2, ⟨2048, 3⟩)]).readV 1).val ≠ 0 ∧ ((before 0 [(1, ⟨2049, 5⟩), (2, ⟨2048, 3⟩)]).readV 2).val ≠ 0 ∧
    (before 0 [(1, ⟨2049, 5⟩), (2, ⟨2048, 3⟩)]).params.maxBits < ((before 0 [(1, ⟨2049, 5⟩), (2, ⟨2048, 3⟩)]).readV 1).len + ((before 0 [(1, ⟨2049, 5⟩), (2, ⟨2048, 3⟩)]).readV 2).len := by decide

theorem witness_MulMeaning_product :
    ((before 0 [(1, ⟨2048, 5⟩), (2, ⟨2048, 3⟩)]).readV 1).val ≠ 0 ∧ ((before 0 [(1, ⟨2048, 5⟩), (2, ⟨2048, 3⟩)]).readV 2).val ≠ 0 ∧
    ((before 0 [(1, ⟨2048, 5⟩), (2, ⟨2048, 3⟩)]).readV 1).len + ((before 0 [(1, ⟨2048, 5⟩), (2, ⟨2048, 3⟩)]).readV 2).len ≤ (before 0 [(1, ⟨2048, 5⟩), (2, ⟨2048, 3⟩)]).params.maxBits := by decide

theorem witness_DivModMeaning :
    ((before 0 [(1, ⟨3, 5⟩)]).readV 2).val = 0 ∧ ((before 0 [(1, ⟨3, 5⟩)]).readV 1).val ≠ 0 := by decide

theorem witness_DivisionLaws :
    ((before 0 [(1, ⟨3, 5⟩)]).readV 1).val ≠ 0 := by decide

theorem witness_TostrMeaning :
    State.reset.params.legal ∧ ((before 36 [(1, ⟨3, 5⟩)]).readV 1).wf (before 36 [(1, ⟨3, 5⟩)]).params ∧ 2 ≤ (before 2 [(1, ⟨3, 5⟩)]).arg.toNat ∧ (before 36 [(1, ⟨3, 5⟩)]).arg.toNat ≤ 36 ∧
    ((before 36 [(1, ⟨3, 5⟩)]).readV 1).val ≠ 0 ∧ ((before 36 [(1, ⟨3, 5⟩)]).readV 2).val = 0 ∧ (before 1 [(1, ⟨3, 5⟩)]).arg.toNat < 2 ∧ 36 < (before 37 [(1, ⟨3, 5⟩)]).arg.toNat := by decide

theorem witness_TobitsMeaning :
    (before 0 [(1, ⟨3, 5⟩)]).params.legal ∧ ((before 0 [(1, ⟨3, 5⟩)]).readV 1).wf (before 0 [(1, ⟨3, 5⟩)]).params ∧ ((before 0 [(1, ⟨3, 5⟩)]).readV 2).wf (before 0 [(1, ⟨3, 5⟩)]).params := by decide

theorem witness_BitStringRoundTrip :
    State.reset.params.legal ∧ (State.reset.readV 1).wf State.reset.params := by decide

theorem witness_ValueCommandFrame :
    (Instr.add 3 1 2).destination = some 3 ∧ ∃ t, exec (.add 3 1 2) State.reset = .next t := ⟨rfl, _, rfl⟩

theorem witness_ResultCommandFrame :
    (Instr.size 1).writesResult = true ∧ ∃ t, exec (.size 1) State.reset = .next t := ⟨rfl, _, rfl⟩

theorem witness_TextCommandFrame :
    ∃ t u, exec (.tobits 1) State.reset = .next t ∧ exec (.tostr 1) (before 10 []) = .next u ∧
    (Instr.tostr 1).storedBytes (before 10 []) ≤ 1 ∧ (Instr.tobits 1).storedBytes State.reset ≤ 0 := ⟨_, _, rfl, rfl, by decide, by decide⟩

theorem witness_ErrorsAreAllOrNothing :
    (small 0x21353 []).busy = true ∧ ∃ t, engineTurn (small 0x21353 []) = .next t ∧ t.err ≠ .none := ⟨rfl, _, rfl, by decide⟩

theorem witness_ResultWriters :
    ∃ t, exec (.size 1) (before 0 [(1, ⟨3, 5⟩)]) = .next t ∧ t.result ≠ (before 0 [(1, ⟨3, 5⟩)]).result := ⟨_, rfl, by decide⟩

theorem witness_CmdWrite :
    Arrives (idle [.write 0x00 8 0x102]) (.write 0x00 8 0x102) [] ∧
    Arrives (small 0x102 [.write 0x00 8 0x102]) (.write 0x00 8 0x102) [] ∧
    (idle []).busy = false ∧
    (small 0x102 []).busy = true := ⟨⟨rfl, rfl⟩, ⟨rfl, rfl⟩, rfl, rfl⟩

theorem witness_OperandWrites :
    Arrives (idle [.write 0x08 8 5]) (.write 0x08 8 5) [] ∧
    Arrives (idle [.write 0x28 8 5]) (.write 0x28 8 5) [] := ⟨⟨rfl, rfl⟩, ⟨rfl, rfl⟩⟩

theorem witness_CbufWrite :
    Arrives (idle [.write (0x1000 + 4088) 8 5]) (.write (0x1000 + 4088) 8 5) [] ∧
    Arrives (idle [.write (0x1000 + 4095) 1 5]) (.write (0x1000 + 4095) 1 5) [] ∧
    Arrives (small 0x102 [.write (0x1000 + 56) 8 5]) (.write (0x1000 + 56) 8 5) [] ∧
    4088 % 8 = 0 ∧ 4088 + 8 ≤ (idle []).params.cbufSize ∧ 4095 % 1 = 0 ∧ 4095 + 1 ≤ (idle []).params.cbufSize ∧
    56 % 8 = 0 ∧ 56 + 8 ≤ (small 0 []).params.cbufSize := ⟨⟨rfl, rfl⟩, ⟨rfl, rfl⟩, ⟨rfl, rfl⟩, by decide, by decide⟩

theorem witness_CbufRead_written :
    Arrives { ones64 64 64 with arrivals := [.read (0x1000 + 56) 8] } (.read (0x1000 + 56) 8) [] ∧
    56 % 8 = 0 ∧ 56 + 8 ≤ (ones64 64 64).params.cbufSize ∧ (ones64 64 64).busy = false ∧
    ∀ i, i < 8 → (ones64 64 64).cbufByte (56 + i) = some 0x31#8 := ⟨⟨rfl, rfl⟩, by decide⟩

theorem witness_CbufRead_unwritten :
    Arrives { ones64 63 63 with arrivals := [.read (0x1000 + 62) 2] } (.read (0x1000 + 62) 2) [] ∧
    62 % 2 = 0 ∧ 62 + 2 ≤ (ones64 63 63).params.cbufSize ∧ (ones64 63 63).busy = false ∧ 1 < 2 ∧
    (ones64 63 63).cbufByte (62 + 1) = none ∧ ∀ i, i < 1 → (ones64 63 63).cbufByte (62 + i) ≠ none := ⟨⟨rfl, rfl⟩, by decide⟩

theorem witness_ReadsWhileBusy :
    Arrives (small 0x102 [.read 0x10 8]) (.read 0x10 8) [] ∧
    Arrives (small 0x102 [.read 0x28 8]) (.read 0x28 8) [] ∧
    Arrives (small 0x102 [.read 0x1038 8]) (.read 0x1038 8) [] ∧
    Arrives (small 0x102 [.read 0x103F 1]) (.read 0x103F 1) [] ∧
    0x1038 % 8 = 0 ∧ 0x1000 ≤ 0x1038 ∧ 0x1038 + 8 ≤ 0x1000 + (small 0 []).params.cbufSize ∧
      0x103F % 1 = 0 ∧ 0x103F + 1 ≤ 0x1000 + (small 0 []).params.cbufSize ∧ (small 0x102 []).busy = true := ⟨⟨rfl, rfl⟩, ⟨rfl, rfl⟩, ⟨rfl, rfl⟩, ⟨rfl, rfl⟩, by decide⟩

theorem witness_RegisterReads :
    Arrives (idle [.read 0x00 8]) (.read 0x00 8) [] ∧
    Arrives (idle [.read 0x08 8]) (.read 0x08 8) [] ∧
    Arrives (idle [.read 0x10 8]) (.read 0x10 8) [] ∧
    Arrives (idle [.read 0x18 8]) (.read 0x18 8) [] ∧
    Arrives (idle [.read 0x20 8]) (.read 0x20 8) [] ∧
    Arrives (idle [.read 0x28 8]) (.read 0x28 8) [] ∧
    Arrives (idle [.read 0x30 8]) (.read 0x30 8) [] ∧
    Arrives (idle [.read 0x38 8]) (.read 0x38 8) [] ∧
    Arrives (idle [.read 0x40 8]) (.read 0x40 8) [] ∧
    (idle []).busy = false := ⟨⟨rfl, rfl⟩, ⟨rfl, rfl⟩, ⟨rfl, rfl⟩, ⟨rfl, rfl⟩, ⟨rfl, rfl⟩, ⟨rfl, rfl⟩, ⟨rfl, rfl⟩, ⟨rfl, rfl⟩, ⟨rfl, rfl⟩, rfl⟩

theorem witness_ReservedOffsets :
    Arrives (idle [.read 0x48 8]) (.read 0x48 8) [] ∧
    Arrives (idle [.read 0xFF8 8]) (.read 0xFF8 8) [] ∧
    Arrives (idle [.write 0x48 8 5]) (.write 0x48 8 5) [] ∧
    Arrives (idle [.write 0xFF8 8 5]) (.write 0xFF8 8 5) [] ∧
    Arrives (idle [.write 0x10 8 5]) (.write 0x10 8 5) [] ∧
    Arrives (idle [.write 0x30 8 5]) (.write 0x30 8 5) [] ∧
    Arrives (idle [.write 0x38 8 5]) (.write 0x38 8 5) [] ∧
    Arrives (idle [.write 0x40 8 5]) (.write 0x40 8 5) [] ∧
    0xFF8 < 0x1000 ∧ 0xFF8 % 8 = 0 ∧ 0x48 ≤ 0x48 ∧ 0x48 % 8 = 0 := ⟨⟨rfl, rfl⟩, ⟨rfl, rfl⟩, ⟨rfl, rfl⟩, ⟨rfl, rfl⟩, ⟨rfl, rfl⟩, ⟨rfl, rfl⟩, ⟨rfl, rfl⟩, ⟨rfl, rfl⟩, by decide⟩

theorem witness_StatusRegister :
    Arrives (idle [.write 0x18 8 0x6]) (.write 0x18 8 0x6) [] := ⟨rfl, rfl⟩

theorem witness_ControlRegister :
    Arrives (idle [.write 0x20 8 0x1]) (.write 0x20 8 0x1) [] ∧
    Arrives (idle [.write 0x20 8 0x2]) (.write 0x20 8 0x2) [] ∧
    (0x1#64).getLsbD 1 = false ∧ (0x2#64).getLsbD 1 = true := ⟨⟨rfl, rfl⟩, ⟨rfl, rfl⟩, by decide⟩

theorem witness_BusErrors :
    ∀ p ∈ [(0x18, 4), (0x1C, 8), (0x1001, 2), (0x2000, 1), (0x1FFC, 8), (0x1000, 3), (0xFF8, 4), (0x1000, 0)],
    ¬((p.2 = 1 ∨ p.2 = 2 ∨ p.2 = 4 ∨ p.2 = 8) ∧ p.1 % p.2 = 0 ∧ (p.1 < 0x1000 → p.2 = 8) ∧
      (0x1000 ≤ p.1 → p.1 + p.2 ≤ 0x1000 + (idle []).params.cbufSize)) := by decide

theorem witness_BusErrors_arrive :
    Arrives (idle [.read 0x18 4]) (.read 0x18 4) [] ∧
    Arrives (idle [.write 0x2000 1 5]) (.write 0x2000 1 5) [] := ⟨⟨rfl, rfl⟩, ⟨rfl, rfl⟩⟩

theorem witness_ReadsChangeNothing :
    Arrives (idle [.read 0x30 8]) (.read 0x30 8) [] ∧ (idle []).busy = false ∧ ∃ t, step (idle [.read 0x30 8]) = .next t := ⟨⟨rfl, rfl⟩, rfl, _, rfl⟩

theorem witness_InterruptLevel :
    (∃ t, exec (.trim 1) State.reset = .next t) ∧
    (∃ t, step (idle [.write 0x18 8 0x2]) = .next t) ∧ (0x2#64).getLsbD 1 = true ∧ Arrives (idle [.write 0x18 8 0x2]) (.write 0x18 8 0x2) [] ∧
    (∃ t, step (idle [.write 0x00 8 0]) = .next t) ∧ (idle []).busy = false ∧ Arrives (idle [.write 0x00 8 0]) (.write 0x00 8 0) [] ∧
    (∃ t, step (idle [.write 0x20 8 0]) = .next t) ∧ (0x0#64).getLsbD 0 = false ∧ Arrives (idle [.write 0x20 8 0]) (.write 0x20 8 0) [] ∧
    (∃ t, step (idle [.write 0x20 8 3]) = .next t) ∧ (0x3#64).getLsbD 1 = true ∧ Arrives (idle [.write 0x20 8 3]) (.write 0x20 8 3) [] := ⟨⟨_, rfl⟩, ⟨_, rfl⟩, by decide, ⟨rfl, rfl⟩, ⟨_, rfl⟩, rfl, ⟨rfl, rfl⟩, ⟨_, rfl⟩, by decide, ⟨rfl, rfl⟩, ⟨_, rfl⟩, by decide, ⟨rfl, rfl⟩⟩

theorem witness_InterruptLevel_rises :
    { small 0x102 [] with ie := true }.irq = false ∧
    (∃ t, step { small 0x102 [] with ie := true } = .next t ∧ t.irq = true) ∧
    Arrives (idle [.resetLine true]) (.resetLine true) [] ∧ ∃ t, step (idle [.resetLine true]) = .next t := ⟨rfl, ⟨_, rfl, rfl⟩, ⟨rfl, rfl⟩, _, rfl⟩

theorem witness_HardwareReset :
    Arrives (small 0x102 [.resetLine true]) (.resetLine true) [] ∧
    ∃ t, step { idle [.resetLine false] with resetIn := true } = .next t ∧ t.resetIn = false := ⟨⟨rfl, rfl⟩, _, rfl, rfl⟩

theorem witness_ResetMeetsInvariant :
    Params.legal ⟨64, 64, 0⟩ ∧ Params.legal ⟨0xFFFFFFFFFFFFFFFF, 0x10000000000000000, 0x1000⟩ := by decide

theorem witness_StepKeepsInvariant :
    (small 0x21350 []).Inv ∧ ∃ t, step (small 0x21350 []) = .next t ∧ t.busy = false := ⟨by decide, _, rfl, rfl⟩

theorem witness_ParametersNeverChange :
    ∃ t, step (small 0x21350 []) = .next t := ⟨_, rfl⟩

theorem witness_ValuesChangeOnlyByCompletionOrReset :
    ∃ t, step (small 0x21350 []) = .next t ∧ t.readV 3 ≠ (small 0x21350 []).readV 3 := ⟨_, rfl, by decide⟩

theorem witness_CommandInFlightIsFrozenAndCompletes :
    (small 0x102 [.write 0x08 8 9, .read 0x10 8, .engine]).busy = true ∧
    (small 0x102 [.write 0x08 8 9, .read 0x10 8, .engine]).resetIn = false ∧ decode 0x102#64 = .ok (.ldu 1) ∧
    (∀ e ∈ [Event.write 0x08 8 9, .read 0x10 8], e.isPlainAccess = true) ∧
    (small 0x102 [.write 0x08 8 9, .read 0x10 8, .engine]).arrivals = [.write 0x08 8 9, .read 0x10 8] ++ [.engine] ∧
    [Event.engine].head? = some .engine := ⟨rfl, rfl, by decide, by decide, rfl, rfl⟩

theorem witness_LoadPseudoInstruction :
    (idle (programEvents (Pseudo.ldu 1 5).lines)).resetIn = false ∧ (idle (programEvents (Pseudo.ldu 1 5).lines)).busy = false ∧
    (idle (programEvents (Pseudo.ldu 1 5).lines)).arrivals = programEvents (Pseudo.ldu 1 5).lines ++ [] := ⟨rfl, rfl, rfl⟩

end Sys2Proof.Machine.Test
end

/-! PROOFS. The statements about the state of 10_state.md: what a host write, a command and a step can do, each said once,
and from that the invariant, the frames, the interrupt output and the command in flight. -/

namespace Sys2Proof.Machine

/-! ### What a host write can do -/

/-- What a write of d at off, width bytes wide, makes of the state s, before it is answered: one case per register and
value of BUSY. A write that is malformed, dropped, or made in reset is ignored (20_memory.md R52, R55, R56;
60_exceptions.md R201; 70_reset_and_hazards.md R230, R231, R240, R241). -/
inductive WriteEffect (s : State) (d : Word64) : (off width : Nat) → State → Prop where
  | ignored (off width : Nat) : WriteEffect s d off width s
  | issue (hr : s.resetIn = false) (hb : s.busy = false) :
      WriteEffect s d 0x00 8 { s with cmd := d, busy := true, done := false }
  | lost (hr : s.resetIn = false) (hb : s.busy = true) : WriteEffect s d 0x00 8 { s with cmdLost := true }
  | arg (hr : s.resetIn = false) (hb : s.busy = false) : WriteEffect s d 0x08 8 { s with arg := d }
  | status (hr : s.resetIn = false) : WriteEffect s d 0x18 8 (s.writeStatus d)
  | enable (hr : s.resetIn = false) (h1 : d.getLsbD 1 = false) : WriteEffect s d 0x20 8 { s with ie := d.getLsbD 0 }
  | softReset (hr : s.resetIn = false) (h1 : d.getLsbD 1 = true) : WriteEffect s d 0x20 8 s.clear
  | clen (hr : s.resetIn = false) (hb : s.busy = false) : WriteEffect s d 0x28 8 { s with clen := d }
  | cbuf (off width : Nat) (hr : s.resetIn = false) (hb : s.busy = false) (hlo : 0x1000 ≤ off)
      (hhi : off + width ≤ 0x1000 + s.params.cbufSize) :
      WriteEffect s d off width { s with cbuf := Mem.writeBytes s.cbuf (off - 0x1000) (bytesLE d.toNat width) }

theorem State.writeCmd_of_idle {s : State} (hb : s.busy = false) (c : Word64) :
    s.writeCmd c = { s with cmd := c, busy := true, done := false } := by simp [State.writeCmd, hb]

theorem State.writeCmd_of_busy {s : State} (hb : s.busy = true) (c : Word64) :
    s.writeCmd c = { s with cmdLost := true } := by simp [State.writeCmd, hb]

theorem State.writeArg_of_idle {s : State} (hb : s.busy = false) (d : Word64) : s.writeArg d = { s with arg := d } := by
  simp [State.writeArg, hb]

theorem State.writeArg_of_busy {s : State} (hb : s.busy = true) (d : Word64) : s.writeArg d = s := by
  simp [State.writeArg, hb]

theorem State.writeClen_of_idle {s : State} (hb : s.busy = false) (d : Word64) : s.writeClen d = { s with clen := d } := by
  simp [State.writeClen, hb]

theorem State.writeClen_of_busy {s : State} (hb : s.busy = true) (d : Word64) : s.writeClen d = s := by
  simp [State.writeClen, hb]

theorem State.writeCbuf_of_idle {s : State} (hb : s.busy = false) (j width : Nat) (d : Word64) :
    s.writeCbuf j width d = { s with cbuf := Mem.writeBytes s.cbuf j (bytesLE d.toNat width) } := by
  simp [State.writeCbuf, hb]

theorem State.writeCbuf_of_busy {s : State} (hb : s.busy = true) (j width : Nat) (d : Word64) :
    s.writeCbuf j width d = s := by simp [State.writeCbuf, hb]

theorem State.writeCtrl_of_enable {d : Word64} (h : d.getLsbD 1 = false) (s : State) :
    s.writeCtrl d = { s with ie := d.getLsbD 0 } := by
  rw [State.writeCtrl, h]; rfl

theorem State.writeCtrl_of_softReset {d : Word64} (h : d.getLsbD 1 = true) (s : State) : s.writeCtrl d = s.clear := by
  rw [State.writeCtrl, h]; rfl

/-- A register write has one of the effects of WriteEffect. -/
theorem writeRegister_effect {s : State} (hr : s.resetIn = false) (off : Nat) (d : Word64) :
    WriteEffect s d off 8 (writeRegister off d s) := by
  rcases writeRegister_cases off d s with ⟨rfl, h⟩ | ⟨rfl, h⟩ | ⟨rfl, h⟩ | ⟨rfl, h⟩ | ⟨rfl, h⟩ | h <;> rw [h]
  · cases hb : s.busy with
    | false => rw [State.writeCmd_of_idle hb]; exact .issue hr hb
    | true => rw [State.writeCmd_of_busy hb]; exact .lost hr hb
  · cases hb : s.busy with
    | false => rw [State.writeArg_of_idle hb]; exact .arg hr hb
    | true => rw [State.writeArg_of_busy hb]; exact .ignored _ _
  · exact .status hr
  · cases h1 : d.getLsbD 1 with
    | false => rw [State.writeCtrl_of_enable h1]; exact .enable hr h1
    | true => rw [State.writeCtrl_of_softReset h1]; exact .softReset hr h1
  · cases hb : s.busy with
    | false => rw [State.writeClen_of_idle hb]; exact .clen hr hb
    | true => rw [State.writeClen_of_busy hb]; exact .ignored _ _
  · exact .ignored _ _

/-- A host write is answered after one of the effects of WriteEffect. -/
theorem hostWrite_effect {off width : Nat} {d : Word64} {s t : State} (h : hostWrite off width d s = .next t) :
    ∃ u b, WriteEffect s d off width u ∧ t = u.respond b none := by
  rcases hostWrite_next h with ⟨b, rfl⟩ | ⟨hr, -, rfl, rfl⟩ | ⟨hr, hlo, hhi, rfl⟩
  · exact ⟨s, b, .ignored _ _, rfl⟩
  · exact ⟨_, false, writeRegister_effect hr off d, rfl⟩
  · refine ⟨_, false, ?_, rfl⟩
    cases hb : s.busy with
    | false => rw [State.writeCbuf_of_idle hb]; exact .cbuf _ _ hr hb hlo hhi
    | true => rw [State.writeCbuf_of_busy hb]; exact .ignored _ _

/-- A host write never stops the machine. -/
theorem hostWrite_answers (off width : Nat) (d : Word64) (s : State) : ∃ t, hostWrite off width d s = .next t := by
  unfold hostWrite; split <;> exact ⟨_, rfl⟩

theorem WriteEffect.params_eq {s u : State} {d : Word64} {off width : Nat} (h : WriteEffect s d off width u) :
    u.params = s.params := by
  cases h <;> rfl

/-- The only write that changes a value register is a soft reset (20_memory.md R51). -/
theorem WriteEffect.v_eq {s u : State} {d : Word64} {off width : Nat} (h : WriteEffect s d off width u) :
    u.v = s.v ∨ (off = 0x20 ∧ width = 8 ∧ d.getLsbD 1 = true) := by
  cases h with
  | softReset _ h1 => exact .inr ⟨rfl, rfl, h1⟩
  | _ => exact .inl rfl

/-- The only write that raises the interrupt output is one of CTRL while DONE = 1 (60_exceptions.md R206). -/
theorem WriteEffect.irq_rises {s u : State} {d : Word64} {off width : Nat} (h : WriteEffect s d off width u)
    (hu : u.irq = true) : s.irq = true ∨ (s.done = true ∧ off = 0x20 ∧ width = 8) := by
  cases h with
  | issue => simp [State.irq] at hu
  | status => simp only [State.irq, State.writeStatus_ie, State.writeStatus_done, Bool.and_eq_true] at hu ⊢; tauto
  | enable => simp only [State.irq, Bool.and_eq_true] at hu; exact .inr ⟨hu.2, rfl, rfl⟩
  | softReset => cases hu
  | _ => exact .inl hu

/-- While BUSY = 1 a write that is no soft reset reaches only CMDLOST, DONE and IE (70_reset_and_hazards.md R241). -/
theorem WriteEffect.eq_of_busy {s u : State} {d : Word64} {off width : Nat} (h : WriteEffect s d off width u)
    (hb : s.busy = true) (hp : (Event.write off width d).isPlainAccess = true) :
    u = { s with done := u.done, cmdLost := u.cmdLost, ie := u.ie } := by
  cases h with
  | issue _ hb' | arg _ hb' | clen _ hb' | cbuf _ _ _ hb' => simp [hb] at hb'
  | softReset _ h1 => exact absurd hp (by simp only [Event.isPlainAccess, h1]; decide)
  | _ => rfl

/-! ### What a command can do -/

/-- A completed command writes at most V, RESULT, CLEN, CBUF and the completion fields (60_exceptions.md R202). -/
theorem exec_frame {i : Instr} {s t : State} (h : exec i s = .next t) :
    t = { s with
      v := t.v, result := t.result, clen := t.clen, cbuf := t.cbuf, err := t.err, busy := false, done := true } := by
  rcases exec_next h with ⟨e, -, rfl⟩ | rfl | ⟨rd, x, -, rfl, -⟩ | ⟨-, r, rfl⟩ | ⟨-, -, text, ht, -, -⟩
  case inr.inr.inr.inr => cases ht; rfl
  all_goals rfl

/-- A completed command leaves legal contents in the value registers (10_state.md R21, R22). -/
theorem exec_valuesWf {i : Instr} {s t : State} (h : exec i s = .next t) (hp : s.params.legal) (hv : s.valuesWf) :
    t.valuesWf := by
  rcases exec_next h with ⟨e, -, rfl⟩ | rfl | ⟨rd, x, -, rfl, hx⟩ | ⟨-, r, rfl⟩ | ⟨-, -, text, ht, -, -⟩
  · exact hv
  · exact hv
  · intro q
    rw [readV_valueWritten]
    split
    · exact hx hp hv
    · exact hv q
  · exact hv
  · cases ht; exact hv

/-- A completed command leaves CBUF in canonical form and inside its size: a text has at most MAX_BITS bytes (00_scope.md
R9). -/
theorem exec_cbufWf {i : Instr} {s t : State} (h : exec i s = .next t) (hp : s.params.legal) (hv : s.valuesWf)
    (hc : s.cbufWf) : t.cbufWf := by
  rcases exec_next h with ⟨e, -, rfl⟩ | rfl | ⟨rd, x, -, rfl, -⟩ | ⟨-, r, rfl⟩ | ⟨-, -, text, ht, -, hlen⟩
  · exact hc
  · exact hc
  · exact hc
  · exact hc
  · cases ht
    have hfits := hlen hp hv
    obtain ⟨-, -, hsize, -, -⟩ := hp
    exact ⟨Mem.wf_writeBytes hc.1 0 text, Mem.bounded_writeBytes hc.2 0 text (by omega)⟩

/-! ### What a turn of the engine can do -/

/-- The frame of a completion, of an illegal command too (60_exceptions.md R202). -/
theorem engineTurn_frame {s t : State} (hb : s.busy = true) (h : engineTurn s = .next t) :
    t = { s with
      v := t.v, result := t.result, clen := t.clen, cbuf := t.cbuf, err := t.err, busy := false, done := true } := by
  rcases engineTurn_next h with ⟨hb', -⟩ | ⟨-, i, -, hi⟩ | ⟨-, rfl⟩
  · simp [hb] at hb'
  · exact exec_frame hi
  · rfl

theorem engineTurn_params {s t : State} (h : engineTurn s = .next t) : t.params = s.params := by
  rcases engineTurn_next h with ⟨-, rfl⟩ | ⟨hb, -⟩ | ⟨hb, -⟩
  · rfl
  · rw [engineTurn_frame hb h]
  · rw [engineTurn_frame hb h]

/-! ### What the delivery of an event can do -/

/-- A change of the reset input leaves the state alone, or the reset state with the new level. -/
theorem State.driveReset_cases (s : State) (b : Bool) :
    (b = false ∧ s.resetIn = false ∧ s.driveReset b = s) ∨
      ((b = true ∨ s.resetIn = true) ∧ s.driveReset b = { s.clear with resetIn := b }) := by
  unfold State.driveReset
  split
  · exact .inr ⟨by simp_all, rfl⟩
  · exact .inl (by simp_all)

theorem deliver_params {e : Event} {s t : State} (h : deliver e s = .next t) : t.params = s.params := by
  cases e with
  | read off width => rw [hostRead_next h]
  | write off width d =>
    obtain ⟨u, b, hu, rfl⟩ := hostWrite_effect h
    exact hu.params_eq
  | engine => exact engineTurn_params h
  | resetLine b =>
    cases h
    rcases s.driveReset_cases b with ⟨-, -, h⟩ | ⟨-, h⟩ <;> rw [h]
    rfl

/-- The events that can change a value register (10_state.md R20, 20_memory.md R51). -/
theorem deliver_v {e : Event} {s t : State} (h : deliver e s = .next t) :
    t.v = s.v ∨ (e = .engine ∧ s.busy = true) ∨ s.resetIn = true ∨ e = .resetLine true ∨
      ∃ d : Word64, e = .write 0x20 8 d ∧ d.getLsbD 1 = true := by
  cases e with
  | read off width => exact .inl (by rw [hostRead_next h])
  | write off width d =>
    obtain ⟨u, b, hu, rfl⟩ := hostWrite_effect h
    rcases hu.v_eq with hv | ⟨rfl, rfl, h1⟩
    · exact .inl hv
    · exact .inr (.inr (.inr (.inr ⟨d, rfl, h1⟩)))
  | engine =>
    rcases engineTurn_next h with ⟨-, rfl⟩ | ⟨hb, -⟩ | ⟨hb, -⟩
    · exact .inl rfl
    · exact .inr (.inl ⟨rfl, hb⟩)
    · exact .inr (.inl ⟨rfl, hb⟩)
  | resetLine b =>
    cases h
    rcases s.driveReset_cases b with ⟨-, -, h⟩ | ⟨rfl | hr, -⟩
    · exact .inl (congrArg State.v h)
    · exact .inr (.inr (.inr (.inl rfl)))
    · exact .inr (.inr (.inl hr))

/-- The events that can raise the interrupt output (60_exceptions.md R206). -/
theorem deliver_irq_rises {e : Event} {s t : State} (h : deliver e s = .next t) (ht : t.irq = true) :
    s.irq = true ∨ (e = .engine ∧ s.busy = true) ∨ (s.done = true ∧ ∃ d, e = .write 0x20 8 d) := by
  cases e with
  | read off width => rw [hostRead_next h] at ht; exact .inl ht
  | write off width d =>
    obtain ⟨u, b, hu, rfl⟩ := hostWrite_effect h
    rcases hu.irq_rises ht with hs | ⟨hd, rfl, rfl⟩
    · exact .inl hs
    · exact .inr (.inr ⟨hd, d, rfl⟩)
  | engine =>
    rcases engineTurn_next h with ⟨-, rfl⟩ | ⟨hb, -⟩ | ⟨hb, -⟩
    · exact .inl ht
    · exact .inr (.inl ⟨rfl, hb⟩)
    · exact .inr (.inl ⟨rfl, hb⟩)
  | resetLine b =>
    cases h
    rcases s.driveReset_cases b with ⟨-, -, h⟩ | ⟨-, h⟩ <;> rw [h] at ht
    · exact .inl ht
    · cases ht

/-! ### What a step can do -/

/-- The event a step takes, and what is left to arrive after it: the head of the sequence, or the engine's turn at its end
(70_reset_and_hazards.md R245). -/
def TakesNext (s : State) (e : Event) (es : List Event) : Prop :=
  s.arrivals = e :: es ∨ (s.arrivals = [] ∧ e = .engine ∧ es = [])

/-- A step delivers the event it takes, to the state held in reset while the input is asserted. -/
theorem step_takesNext {s t : State} (h : step s = .next t) :
    ∃ e es, TakesNext s e es ∧ deliver e { s.held with arrivals := es } = .next t := by
  rw [step_eq] at h
  split at h
  next ha =>
    have hs : { s.held with arrivals := [] } = s.held := by rw [← ha, ← s.held_arrivals]
    exact ⟨.engine, [], .inr ⟨ha, rfl, rfl⟩, by rw [hs]; exact h⟩
  next e es ha => exact ⟨e, es, .inl ha, h⟩

theorem TakesNext.engineNext {s : State} {es : List Event} (h : TakesNext s .engine es) (hr : s.resetIn = false) :
    EngineNext s es :=
  ⟨hr, h.imp_right fun ⟨ha, _, hes⟩ => ⟨ha, hes⟩⟩

theorem TakesNext.arrives {s : State} {e : Event} {es : List Event} (h : TakesNext s e es) (he : e ≠ .engine)
    (hr : s.resetIn = false) : Arrives s e es :=
  ⟨hr, h.resolve_right fun ⟨_, hE, _⟩ => he hE⟩

/-- A register write that arrives is the next step, and is answered after its effect (20_memory.md R52, R54). -/
theorem step_of_registerWrite {s u : State} {off : Nat} {d : Word64} {es : List Event}
    (h : Arrives s (.write off 8 d) es) (hu : writeRegister off d { s with arrivals := es } = u)
    (hoff : off < 0x1000 := by decide) (h8 : off % 8 = 0 := by decide) : step s = .next (u.respond false none) := by
  subst hu
  rw [step_of_arrives h]
  simp [deliver, hostWrite, accessOk_register s.params hoff h8, h.1, hoff]

/-! ### The invariant -/

/-- The invariant does not look at the model's record of the outside. -/
theorem State.Inv.record {s : State} (h : s.Inv) (es : List Event) (a : Option Response) (n : Nat) :
    State.Inv { s with arrivals := es, response := a, draws := n } := by
  obtain ⟨hp, hv, hc, hb, hr⟩ := h
  exact ⟨hp, hv, hc, hb,
    fun hi => congrArg (fun u : State => { u with arrivals := es, response := a, draws := n }) (hr hi)⟩

/-- The reset state meets the invariant, whatever the level of the reset input. -/
theorem State.clear_inv {s : State} (hp : s.params.legal) (b : Bool) : State.Inv { s.clear with resetIn := b } :=
  ⟨hp, fun r => (s.readV_clear r).symm ▸ Value.empty_wf _, ⟨List.Pairwise.nil, by simp⟩, by simp, fun _ => rfl⟩

theorem State.resetOf_inv {p : Params} (hp : p.legal) : (State.resetOf p).Inv :=
  State.clear_inv (s := State.resetOf p) hp false

/-- A state that meets the invariant holds what its reset input demands. -/
theorem State.Inv.held_eq {s : State} (h : s.Inv) : s.held = s := by
  obtain ⟨-, -, -, -, hr⟩ := h
  unfold State.held
  split
  next hi => exact (hr hi).symm
  next => rfl

/-- A command in flight means that the reset input is released. -/
theorem State.Inv.released_of_busy {s : State} (h : s.Inv) (hb : s.busy = true) : s.resetIn = false := by
  obtain ⟨-, -, -, -, hr⟩ := h
  by_contra hi
  rw [hr (by simpa using hi)] at hb
  cases hb

theorem WriteEffect.inv {s u : State} {d : Word64} {off width : Nat} (h : WriteEffect s d off width u) (hs : s.Inv) :
    u.Inv := by
  have ⟨hp, hv, hc, hb, _⟩ := hs
  cases h with
  | ignored => exact hs
  | issue hr => exact ⟨hp, hv, hc, by simp, by simp [hr]⟩
  | lost hr | arg hr | clen hr | enable hr => exact ⟨hp, hv, hc, hb, by simp [hr]⟩
  | status hr => exact ⟨hp, hv, hc, fun ⟨hbusy, hdone⟩ => hb ⟨hbusy, Bool.and_elim_left hdone⟩, by simp [hr]⟩
  | softReset => exact State.clear_inv hp s.resetIn
  | cbuf _ _ hr _ hlo hhi =>
    obtain ⟨hwf, hlt⟩ := hc
    exact ⟨hp, hv, ⟨Mem.wf_writeBytes hwf _ _, Mem.bounded_writeBytes hlt _ _ (by simp; omega)⟩, hb, by simp [hr]⟩

theorem exec_inv {i : Instr} {s t : State} (h : exec i s = .next t) (hs : s.Inv) (hb : s.busy = true) : t.Inv := by
  have ⟨hp, hv, hc, _, _⟩ := hs
  have hparams : t.params = s.params := by rw [exec_frame h]
  have hbusy : t.busy = false := by rw [exec_frame h]
  have hreset : t.resetIn = false := by rw [exec_frame h]; exact hs.released_of_busy hb
  exact ⟨hparams ▸ hp, exec_valuesWf h hp hv, exec_cbufWf h hp hv hc, by simp [hbusy], by simp [hreset]⟩

theorem failedWith_inv {s : State} (hs : s.Inv) (hb : s.busy = true) (e : ErrCode) : (failedWith s e).Inv := by
  have ⟨hp, hv, hc, _, _⟩ := hs
  exact ⟨hp, hv, hc, by simp [failedWith], by simp [failedWith, hs.released_of_busy hb]⟩

theorem engineTurn_inv {s t : State} (h : engineTurn s = .next t) (hs : s.Inv) : t.Inv := by
  rcases engineTurn_next h with ⟨-, rfl⟩ | ⟨hb, i, -, hi⟩ | ⟨hb, rfl⟩
  · exact hs
  · exact exec_inv hi hs hb
  · exact failedWith_inv hs hb _

theorem State.Inv.driveReset {s : State} (hs : s.Inv) (b : Bool) : (s.driveReset b).Inv := by
  rcases s.driveReset_cases b with ⟨-, -, h⟩ | ⟨-, h⟩ <;> rw [h]
  · exact hs
  · exact State.clear_inv hs.1 b

theorem deliver_inv {e : Event} {s t : State} (h : deliver e s = .next t) (hs : s.Inv) : t.Inv := by
  cases e with
  | read off width => rw [hostRead_next h]; exact hs.record s.arrivals _ _
  | write off width d =>
    obtain ⟨u, b, hu, rfl⟩ := hostWrite_effect h
    exact (hu.inv hs).record u.arrivals _ u.draws
  | engine => exact engineTurn_inv h hs
  | resetLine b => cases h; exact hs.driveReset b

/-- Settles O55: the event a step takes is delivered to a state that meets the invariant, and every delivery keeps it. -/
theorem stepKeepsInvariant : Obligations.StepKeepsInvariant := by
  intro s t hs h
  obtain ⟨e, es, -, h⟩ := step_takesNext h
  rw [hs.held_eq] at h
  exact deliver_inv h (hs.record es s.response s.draws)

/-- Settles O54: EMPTY is a legal content and an empty CBUF is canonical. -/
theorem resetMeetsInvariant : Obligations.ResetMeetsInvariant :=
  ⟨State.resetOf_inv (by decide), fun _ => State.resetOf_inv⟩

/-- Settles O52. -/
theorem resetState : Obligations.ResetState :=
  ⟨State.readV_resetOf _, rfl, rfl, rfl, rfl, rfl, rfl, rfl, rfl, rfl, fun _ => rfl, rfl⟩

/-! ### Parameters, value registers and RESULT -/

/-- Settles O56: no event changes the parameters, and neither does holding the reset state. -/
theorem parametersNeverChange : Obligations.ParametersNeverChange := by
  intro s t h
  obtain ⟨e, es, -, h⟩ := step_takesNext h
  exact (deliver_params h).trans s.held_params

/-- Settles O57, by the events that can change a value register. -/
theorem valuesChangeOnlyByCompletionOrReset : Obligations.ValuesChangeOnlyByCompletionOrReset := by
  intro s t r h hne
  cases hr : s.resetIn with
  | true => exact .inr (.inl rfl)
  | false =>
    obtain ⟨e, es, he, h⟩ := step_takesNext h
    rw [State.held_of_released hr] at h
    rcases deliver_v h with hv | ⟨rfl, hb⟩ | hi | rfl | ⟨d, rfl, h1⟩
    · exact absurd (State.readV_congr hv r) hne
    · exact .inl ⟨hb, es, he.engineNext hr⟩
    · simp [hr] at hi
    · exact .inr (.inr (.inl ⟨es, he.arrives (by simp) hr⟩))
    · exact .inr (.inr (.inr ⟨es, d, he.arrives (by simp) hr, h1⟩))

/-- Settles O39: of the writes a command can make, only that of RESULT changes it, and it comes with ERR none. -/
theorem resultWriters : Obligations.ResultWriters := by
  intro i s t h hne
  rcases exec_next h with ⟨e, -, rfl⟩ | rfl | ⟨rd, x, -, rfl, -⟩ | ⟨hw, r, rfl⟩ | ⟨-, -, text, ht, -, -⟩
  · exact absurd rfl hne
  · exact absurd rfl hne
  · exact absurd rfl hne
  · exact ⟨hw, rfl⟩
  · cases ht; exact absurd rfl hne

/-! ### Writes of the registers -/

/-- Settles O40. -/
theorem cmdWrite : Obligations.CmdWrite := fun s es c h =>
  ⟨fun hb => step_of_registerWrite h (State.writeCmd_of_idle (s := { s with arrivals := es }) hb c),
    fun hb => step_of_registerWrite h (State.writeCmd_of_busy (s := { s with arrivals := es }) hb c)⟩

/-- ARG after a write to it, for both values of BUSY (10_state.md R28, 70_reset_and_hazards.md R241). -/
theorem State.writeArg_eq (s : State) (d : Word64) : s.writeArg d = { s with arg := if s.busy then s.arg else d } := by
  cases hb : s.busy with
  | false => rw [State.writeArg_of_idle hb, if_neg (by decide), hb]
  | true => rw [State.writeArg_of_busy hb, if_pos rfl, ← hb]

/-- CLEN after a write to it, for both values of BUSY (10_state.md R32, 70_reset_and_hazards.md R241). -/
theorem State.writeClen_eq (s : State) (d : Word64) :
    s.writeClen d = { s with clen := if s.busy then s.clen else d } := by
  cases hb : s.busy with
  | false => rw [State.writeClen_of_idle hb, if_neg (by decide), hb]
  | true => rw [State.writeClen_of_busy hb, if_pos rfl, ← hb]

/-- Settles O41. -/
theorem operandWrites : Obligations.OperandWrites := fun s es d =>
  ⟨fun h => step_of_registerWrite h (State.writeArg_eq { s with arrivals := es } d),
    fun h => step_of_registerWrite h (State.writeClen_eq { s with arrivals := es } d)⟩

theorem ErrCode.code_lt (e : ErrCode) : e.code < 2 ^ 4 := by cases e <;> decide

/-- The three flags below bit 8 of STATUS. -/
theorem flags_testBit (b d c : Bool) {k : Nat} (hk : k < 8) : (b.toNat + d.toNat * 2 + c.toNat * 4).testBit k =
    if k = 0 then b else if k = 1 then d else if k = 2 then c else false := by
  revert b d c k; decide

/-- STATUS bit by bit (10_state.md R30): the flags below bit 8 and the error code above. -/
theorem State.statusWord_getLsbD (s : State) (k : Nat) : s.statusWord.getLsbD k =
    if k = 0 then s.busy else if k = 1 then s.done else if k = 2 then s.cmdLost
    else if 8 ≤ k ∧ k ≤ 11 then s.err.code.testBit (k - 8) else false := by
  have hsum : s.busy.toNat + s.done.toNat * 2 + s.cmdLost.toNat * 4 + s.err.code * 256 =
      2 ^ 8 * s.err.code + (s.busy.toNat + s.done.toNat * 2 + s.cmdLost.toNat * 4) := by ring
  have hflags : s.busy.toNat + s.done.toNat * 2 + s.cmdLost.toNat * 4 < 2 ^ 8 := by
    have := s.busy.toNat_le; have := s.done.toNat_le; have := s.cmdLost.toNat_le; omega
  rw [State.statusWord, hsum, BitVec.getLsbD_ofNat, Nat.testBit_two_pow_mul_add _ hflags]
  by_cases hlow : k < 8
  · rw [if_pos hlow, flags_testBit _ _ _ hlow, if_neg (c := 8 ≤ k ∧ k ≤ 11) (by omega),
      decide_eq_true (by omega : k < 64), Bool.true_and]
  · rw [if_neg hlow, if_neg (by omega), if_neg (by omega), if_neg (by omega)]
    by_cases hcode : k ≤ 11
    · rw [if_pos ⟨by omega, hcode⟩, decide_eq_true (by omega : k < 64), Bool.true_and]
    · have hbig : s.err.code < 2 ^ (k - 8) := s.err.code_lt.trans_le (Nat.pow_le_pow_right (by decide) (by omega))
      rw [if_neg (by omega), Nat.testBit_lt_two_pow hbig, Bool.and_false]

/-- Settles O47. -/
theorem statusRegister : Obligations.StatusRegister := fun s _ _ =>
  ⟨s.statusWord_getLsbD, fun h => step_of_registerWrite h rfl, rfl⟩

theorem State.ctrlWord_getLsbD (s : State) (k : Nat) : s.ctrlWord.getLsbD k = (decide (k = 0) && s.ie) := by
  rw [State.ctrlWord, BitVec.getLsbD_ofNat, Nat.testBit_bool_toNat]
  by_cases hk : k = 0 <;> simp [hk]

/-- Settles O48: a write of CTRL enables or resets, by SRST. -/
theorem controlRegister : Obligations.ControlRegister := by
  refine fun s es d => ⟨s.ctrlWord_getLsbD, fun h h1 => ?_, fun h h1 => ?_⟩
  · exact step_of_registerWrite h (State.writeCtrl_of_enable h1 _)
  · rw [step_of_registerWrite h (State.writeCtrl_of_softReset h1 _)]
    simp only [State.respond, State.clear, State.resetOf, Value.empty, h.1]

/-! ### The interrupt output -/

theorem State.irq_iff (s : State) : s.irq = true ↔ s.ie = true ∧ s.done = true := by simp [State.irq]

/-- After a completion the interrupt output is IE (60_exceptions.md R206). -/
theorem exec_irq {i : Instr} {s t : State} (h : exec i s = .next t) : t.irq = s.ie :=
  (congrArg State.irq (exec_frame h)).trans (Bool.and_true _)

/-- A step that raises the interrupt output completes a command or writes CTRL while DONE = 1 (60_exceptions.md R206). -/
theorem step_irq_rises {s t : State} (hs : s.irq = false) (h : step s = .next t) (ht : t.irq = true) :
    (s.busy = true ∧ ∃ es, EngineNext s es) ∨ (s.done = true ∧ ∃ es d, Arrives s (.write 0x20 8 d) es) := by
  obtain ⟨e, es, he, h⟩ := step_takesNext h
  cases hr : s.resetIn with
  | true =>
    rw [State.held_of_asserted hr] at h
    rcases deliver_irq_rises h ht with h0 | ⟨-, h0⟩ | ⟨h0, -⟩ <;> cases h0
  | false =>
    rw [State.held_of_released hr] at h
    rcases deliver_irq_rises h ht with h0 | ⟨rfl, hb⟩ | ⟨hd, d, rfl⟩
    · exact absurd (hs.symm.trans h0) (by decide)
    · exact .inl ⟨hb, es, he.engineNext hr⟩
    · exact .inr ⟨hd, es, d, he.arrives (by simp) hr⟩

/-- Settles O51: the low levels from what each write leaves, the rise from the events that can cause it. -/
theorem interruptLevel : Obligations.InterruptLevel := by
  refine fun s t => ⟨s.irq_iff, fun i => exec_irq, fun d es ht h h1 => ?_, fun c es ht h hb => ?_, fun d es ht h hd => ?_,
    fun es ht h => ?_, step_irq_rises⟩
  · rw [step_of_registerWrite h rfl] at ht
    cases ht
    show (s.ie && (s.done && !d.getLsbD 1)) = false
    simp only [h1, Bool.not_true, Bool.and_false]
  · rw [step_of_registerWrite h (State.writeCmd_of_idle (s := { s with arrivals := es }) hb c)] at ht
    cases ht
    exact Bool.and_false _
  · cases h1 : d.getLsbD 1 with
    | false =>
      rw [step_of_registerWrite h (State.writeCtrl_of_enable h1 _)] at ht
      cases ht
      show (d.getLsbD 0 && s.done) = false
      rw [hd.resolve_right (by simp only [h1]; decide), Bool.false_and]
    | true =>
      rw [step_of_registerWrite h (State.writeCtrl_of_softReset h1 _)] at ht
      cases ht; rfl
  · rw [step_of_arrives h] at ht
    cases ht; rfl

/-! ### A command in flight -/

theorem SameEngineSide.refl (s : State) : SameEngineSide s s := ⟨rfl, rfl, rfl, rfl, rfl, rfl, rfl, rfl⟩

theorem SameEngineSide.trans {s t u : State} (h : SameEngineSide s t) (h' : SameEngineSide t u) : SameEngineSide s u := by
  obtain ⟨hv, hcmd, harg, hresult, hclen, hcbuf, herr, hp⟩ := h
  obtain ⟨hv', hcmd', harg', hresult', hclen', hcbuf', herr', hp'⟩ := h'
  exact ⟨hv'.trans hv, hcmd'.trans hcmd, harg'.trans harg, hresult'.trans hresult, hclen'.trans hclen,
    hcbuf'.trans hcbuf, herr'.trans herr, hp'.trans hp⟩

/-- A read while BUSY = 1 never stops the machine (70_reset_and_hazards.md R242). -/
theorem hostRead_answers_of_busy {s : State} (hb : s.busy = true) (off width : Nat) :
    ∃ t, hostRead off width s = .next t := by
  unfold hostRead
  split
  · split
    · exact ⟨_, rfl⟩
    · exact ⟨_, by rw [readCbuf, if_pos hb]⟩
  · exact ⟨_, rfl⟩

/-- A plain access while BUSY = 1 is answered and reaches only DONE, CMDLOST, IE and the model's own record (10_state.md
R37). -/
theorem deliver_plainAccess {e : Event} {s : State} (hp : e.isPlainAccess = true) (hb : s.busy = true) :
    ∃ t, deliver e s = .next t ∧ t = { s with
      done := t.done, cmdLost := t.cmdLost, ie := t.ie, response := t.response, draws := t.draws } := by
  cases e with
  | read off width =>
    obtain ⟨t, ht⟩ := hostRead_answers_of_busy hb off width
    exact ⟨t, ht, by rw [hostRead_next ht]⟩
  | write off width d =>
    obtain ⟨t, ht⟩ := hostWrite_answers off width d s
    obtain ⟨u, b, hu, rfl⟩ := hostWrite_effect ht
    exact ⟨_, ht, by rw [hu.eq_of_busy hb hp]; rfl⟩
  | engine => cases hp
  | resetLine b => cases hp

/-- A step that takes a plain access while BUSY = 1 leaves the command in flight and its inputs as they were. -/
theorem step_of_plainAccess {e : Event} {es : List Event} {s : State} (h : Arrives s e es) (hp : e.isPlainAccess = true)
    (hb : s.busy = true) :
    ∃ t, step s = .next t ∧ SameEngineSide s t ∧ t.busy = true ∧ t.resetIn = false ∧ t.arrivals = es := by
  obtain ⟨t, ht, hframe⟩ := deliver_plainAccess (s := { s with arrivals := es }) hp hb
  refine ⟨t, (step_of_arrives h).trans ht, ?_⟩
  rw [hframe]
  exact ⟨SameEngineSide.refl s, hb, h.1, rfl⟩

theorem run_succ_of_step {s t : State} (h : step s = .next t) (n : Nat) : core.run (n + 1) s = core.run n t := by
  simp only [Host.Core.run, core, h]

/-- Any number of plain accesses leaves the command in flight and its inputs as they were (10_state.md R37). -/
theorem run_plainAccesses {accesses rest : List Event} {s : State} (hr : s.resetIn = false) (hb : s.busy = true)
    (hp : ∀ e ∈ accesses, e.isPlainAccess = true) (ha : s.arrivals = accesses ++ rest) :
    ∃ t : State, core.run accesses.length s = .next t ∧ SameEngineSide s t ∧ t.busy = true ∧ t.resetIn = false ∧
      t.arrivals = rest := by
  induction accesses generalizing s with
  | nil => exact ⟨s, rfl, .refl s, hb, hr, ha⟩
  | cons e es ih =>
    obtain ⟨u, hstep, hsu, hbu, hru, hau⟩ := step_of_plainAccess ⟨hr, ha⟩ (hp e (by simp)) hb
    obtain ⟨t, hrun, hut, ht⟩ := ih hru hbu (fun e' he' => hp e' (by simp [he'])) hau
    exact ⟨t, (run_succ_of_step hstep _).trans hrun, hsu.trans hut, ht⟩

/-- The engine is next when its turn is at the head of the sequence or nothing is left to arrive. -/
theorem engineNext_of_head {s : State} (hr : s.resetIn = false) (h : s.arrivals = [] ∨ s.arrivals.head? = some .engine) :
    EngineNext s s.arrivals.tail := by
  refine ⟨hr, ?_⟩
  rcases h with h | h
  · exact .inr ⟨h, by rw [h]; rfl⟩
  · exact .inl (List.cons_head?_tail h).symm

/-- Settles O58: the accesses leave the command and its inputs, so the engine's turn after them is exec of it. -/
theorem commandInFlightIsFrozenAndCompletes : Obligations.CommandInFlightIsFrozenAndCompletes := by
  intro s accesses rest i hr hb hi hp ha hrest
  obtain ⟨t, hrun, hst, hbt, hrt, rfl⟩ := run_plainAccesses hr hb hp ha
  have ⟨_, hcmd, _⟩ := hst
  refine ⟨t, hrun, hst, hbt, hrt, rfl, ?_⟩
  rw [step_of_engineNext (engineNext_of_head hrt hrest)]
  exact engineTurn_of_decode hbt (by rw [← hi, ← hcmd])

end Sys2Proof.Machine

/-! PROOFS. The statements about the register window of 20_memory.md: what a well-formed access of a register and of CBUF
answers and writes, what a malformed one does, and that a read changes no state. -/

namespace Sys2Proof.Machine

/-! ### Reads of the registers -/

/-- A register read that arrives is the next step (20_memory.md R52, R54). -/
theorem step_of_registerRead {s u : State} {off : Nat} {es : List Event} (h : Arrives s (.read off 8) es)
    (hu : readRegister off { s with arrivals := es } = u) (hoff : off < 0x1000 := by decide)
    (h8 : off % 8 = 0 := by decide) : step s = .next u := by
  subst hu
  rw [step_of_arrives h]
  simp [deliver, hostRead, accessOk_register s.params hoff h8, hoff]

theorem State.answerResult_of_idle {s : State} (hb : s.busy = false) (d : Word64) : s.answerResult d = s.answer d := by
  simp [State.answerResult, hb]

/-- Settles O45: each register's arm of readRegister; those of RESULT and CLEN ask for BUSY. -/
theorem registerReads : Obligations.RegisterReads := by
  intro s es off d h hd
  simp only [List.mem_cons, List.not_mem_nil, or_false, Prod.mk.injEq] at hd
  rcases hd with hAnyTime | ⟨hb, hResultOrClen⟩
  · rcases hAnyTime with ⟨rfl, rfl⟩ | ⟨rfl, rfl⟩ | ⟨rfl, rfl⟩ | ⟨rfl, rfl⟩ | ⟨rfl, rfl⟩ | ⟨rfl, rfl⟩ | ⟨rfl, rfl⟩
    all_goals exact step_of_registerRead h rfl
  · rcases hResultOrClen with ⟨rfl, rfl⟩ | ⟨rfl, rfl⟩
    all_goals exact step_of_registerRead h (State.answerResult_of_idle (s := { s with arrivals := es }) hb _)

/-! ### Reserved offsets and read-only registers -/

/-- A reserved offset reads as 0 (20_memory.md R55). -/
theorem readRegister_of_reserved {off : Nat} (h : 0x48 ≤ off) (s : State) : readRegister off s = s.answer 0 := by
  unfold readRegister
  split
  case h_10 => rfl
  all_goals omega

/-- A reserved offset and a read-only register ignore a write (20_memory.md R55). -/
theorem writeRegister_of_ignored {off : Nat} (h : 0x48 ≤ off ∨ off = 0x10 ∨ off = 0x30 ∨ off = 0x38 ∨ off = 0x40)
    (d : Word64) (s : State) : writeRegister off d s = s := by
  rcases writeRegister_cases off d s with ⟨rfl, -⟩ | ⟨rfl, -⟩ | ⟨rfl, -⟩ | ⟨rfl, -⟩ | ⟨rfl, -⟩ | hsame
  case inr.inr.inr.inr.inr => exact hsame
  all_goals omega

/-- Settles O46. -/
theorem reservedOffsets : Obligations.ReservedOffsets := fun _ _ _ d hoff h8 =>
  ⟨fun hres h => step_of_registerRead h (readRegister_of_reserved hres _) hoff h8,
    fun hign h => step_of_registerWrite h (writeRegister_of_ignored hign d _) hoff h8⟩

/-! ### Bus errors -/

theorem hostRead_of_malformed {off width : Nat} {s : State} (h : accessOk s.params off width = false) :
    hostRead off width s = .next (s.respond true (some 0)) := by
  simp [hostRead, h]

theorem hostWrite_of_malformed {off width : Nat} {s : State} (h : accessOk s.params off width = false) (d : Word64) :
    hostWrite off width d s = .next (s.respond true none) := by
  simp [hostWrite, h]

/-- Settles O49: the hypothesis is that the access is not well formed. -/
theorem busErrors : Obligations.BusErrors := by
  intro s es off w d hbad
  have hmal : accessOk s.params off w = false := by rwa [Bool.eq_false_iff, ne_eq, accessOk_iff]
  exact ⟨fun h => (step_of_arrives h).trans (hostRead_of_malformed hmal),
    fun h => (step_of_arrives h).trans (hostWrite_of_malformed (s := { s with arrivals := es }) hmal d)⟩

/-! ### Reads change no state -/

theorem readRegister_draws_of_idle {s : State} (hb : s.busy = false) (off : Nat) :
    (readRegister off s).draws = s.draws := by
  unfold readRegister
  split
  case h_3 | h_6 => rw [State.answerResult_of_idle hb]; rfl
  all_goals rfl

/-- A read of written bytes of CBUF while BUSY = 0 answers their number (20_memory.md R53). -/
theorem readCbuf_of_written {s : State} {j width d : Nat} (hb : s.busy = false)
    (h : Mem.readLE s.cbuf width j = .ok d) : readCbuf j width s = .next (s.answer (BitVec.ofNat 64 d)) := by
  simp [readCbuf, hb, h]

/-- A read over an unwritten byte of CBUF while BUSY = 0 is a fault of the model (60_exceptions.md R216). -/
theorem readCbuf_of_unwritten {s : State} {j width k : Nat} (hb : s.busy = false)
    (h : Mem.readLE s.cbuf width j = .error k) : readCbuf j width s = .fault (.unwrittenRead k) := by
  simp [readCbuf, hb, h]

theorem readCbuf_draws_of_idle {j width : Nat} {s t : State} (hb : s.busy = false) (h : readCbuf j width s = .next t) :
    t.draws = s.draws := by
  cases hr : Mem.readLE s.cbuf width j with
  | ok d => rw [readCbuf_of_written hb hr] at h; cases h; rfl
  | error k => rw [readCbuf_of_unwritten hb hr] at h; cases h

/-- A read while BUSY = 0 draws no free value (70_reset_and_hazards.md R242). -/
theorem hostRead_draws_of_idle {off width : Nat} {s t : State} (hb : s.busy = false)
    (h : hostRead off width s = .next t) : t.draws = s.draws := by
  unfold hostRead at h
  split at h
  · split at h
    · cases h; exact readRegister_draws_of_idle hb off
    · exact readCbuf_draws_of_idle hb h
  · cases h; rfl

/-- Settles O50. -/
theorem readsChangeNothing : Obligations.ReadsChangeNothing := by
  intro s t es off w h ht
  rw [step_of_arrives h] at ht
  exact ⟨hostRead_next ht, fun hb => hostRead_draws_of_idle (s := { s with arrivals := es }) hb ht⟩

/-! ### CBUF -/

/-- An access of w bytes at CBUF[j] is well formed when w is 1, 2, 4 or 8, j is aligned and the bytes lie in CBUF
(20_memory.md R53). -/
theorem accessOk_cbuf {p : Params} {j w : Nat} (hw : w = 1 ∨ w = 2 ∨ w = 4 ∨ w = 8) (hj : j % w = 0)
    (hfit : j + w ≤ p.cbufSize) : accessOk p (0x1000 + j) w = true := by
  have halign : (0x1000 + j) % w = 0 := by rcases hw with rfl | rfl | rfl | rfl <;> omega
  exact (accessOk_iff p _ w).2 ⟨hw, halign, by omega, by omega⟩

/-- A well-formed read of CBUF that arrives is the next step. -/
theorem step_of_cbufRead {s : State} {es : List Event} {j w : Nat} (h : Arrives s (.read (0x1000 + j) w) es)
    (hok : accessOk s.params (0x1000 + j) w = true) : step s = readCbuf j w { s with arrivals := es } := by
  rw [step_of_arrives h]
  simp [deliver, hostRead, hok]

/-- A well-formed write of CBUF that arrives is the next step, and is answered after its effect. -/
theorem step_of_cbufWrite {s u : State} {es : List Event} {j w : Nat} {d : Word64}
    (h : Arrives s (.write (0x1000 + j) w d) es) (hok : accessOk s.params (0x1000 + j) w = true)
    (hu : State.writeCbuf { s with arrivals := es } j w d = u) : step s = .next (u.respond false none) := by
  subst hu
  rw [step_of_arrives h]
  simp [deliver, hostWrite, hok, h.1]

/-- Bits [8i+7:8i] of a word are byte i of its little-endian number (20_memory.md R53). -/
theorem extractLsb'_byte (d : Word64) (i : Nat) : d.extractLsb' (8 * i) 8 = BitVec.ofNat 8 (d.toNat / 256 ^ i) := by
  rw [BitVec.extractLsb', Nat.shiftRight_eq_div_pow, Nat.pow_mul]

/-- Settles O42: a read after the write gives the written byte inside the w bytes, and the byte of before outside. -/
theorem cbufWrite : Obligations.CbufWrite := by
  intro s es j w d h hw hj hfit
  have hok := accessOk_cbuf hw hj hfit
  refine ⟨fun hb => ⟨_, step_of_cbufWrite h hok (State.writeCbuf_of_idle (s := { s with arrivals := es }) hb j w d), rfl,
      fun i hi => ?_, fun k hk => ?_⟩,
    fun hb => step_of_cbufWrite h hok (State.writeCbuf_of_busy (s := { s with arrivals := es }) hb j w d)⟩
  · rw [State.cbufByte, State.respond_cbuf, Mem.read_writeBytes, bytesLE_length, if_pos (by omega),
      Nat.add_sub_cancel_left, bytesLE_getElem? _ _ _ hi, extractLsb'_byte]
  · rw [State.cbufByte, State.respond_cbuf, Mem.read_writeBytes, bytesLE_length, if_neg (by omega), State.cbufByte]

/-- Settles O43: the read answers the little-endian number of the bytes, or the index of the lowest unwritten one. -/
theorem cbufRead : Obligations.CbufRead := by
  intro s es j w h hw hj hfit hb
  rw [step_of_cbufRead h (accessOk_cbuf hw hj hfit)]
  refine ⟨fun b hbytes => ?_, fun k hk hnone hlow => ?_⟩
  · obtain ⟨n, hread, hlt, hbyte⟩ := Mem.readLE_ok hbytes
    have h256 : 256 ^ w = 2 ^ (8 * w) := by rw [Nat.pow_mul]
    have hmod : (BitVec.ofNat 64 n).toNat = n :=
      Nat.mod_eq_of_lt (hlt.trans_le (h256 ▸ Nat.pow_le_pow_right (by decide) (by omega)))
    refine ⟨BitVec.ofNat 64 n, readCbuf_of_written (s := { s with arrivals := es }) hb hread, fun i hi => ?_, ?_⟩
    · rw [extractLsb'_byte, hmod, hbyte i hi]
    · rwa [hmod, ← h256]
  · exact readCbuf_of_unwritten (s := { s with arrivals := es }) hb (Mem.readLE_error hk hnone hlow)

end Sys2Proof.Machine

/-! PROOFS. The statements about the command encoding of 30_encoding.md: the decoder and the encoder undo each other, the
decoder accepts what R84 calls legal, an illegal value completes with IllegalCommand, and the pseudo-instruction `ldu`. -/

namespace Sys2Proof

/-! ### What decoding the fields of a command word can give -/

/-- What the fields of a command word decode to, with the reason (30_encoding.md R81, R82, R84): an opcode without a
format, a field of the format's must-be-zero column that is not 0, or the command whose encoding has these fields. -/
inductive FieldsDecode (op : Nat) (rd rs1 rs2 : VReg) (f : Bool) : Except Illegal Instr → Prop where
  | reservedOpcode (hop : formatOf op = none) : FieldsDecode op rd rs1 rs2 f (.error (.reservedOpcode op))
  | fieldNotZero (fm : Format) (hop : formatOf op = some fm) (hz : fm.mustBeZero rd rs1 rs2 f.toNat = false) :
      FieldsDecode op rd rs1 rs2 f (.error (.fieldNotZero op))
  | command (fm : Format) (i : Instr) (hop : formatOf op = some fm) (hz : fm.mustBeZero rd rs1 rs2 f.toNat = true)
      (hi : encode i = commandWord op rd rs1 rs2 f) : FieldsDecode op rd rs1 rs2 f (.ok i)

/-- An arm of the opcode map whose test is the must-be-zero column of its format. -/
theorem FieldsDecode.of_requireZero {op : Nat} {rd rs1 rs2 : VReg} {f z : Bool} {i : Instr} (fm : Format)
    (hop : formatOf op = some fm) (hz : fm.mustBeZero rd rs1 rs2 f.toNat = z)
    (hi : z = true → encode i = commandWord op rd rs1 rs2 f) : FieldsDecode op rd rs1 rs2 f (requireZero op z i) := by
  cases z with
  | false => exact .fieldNotZero fm hop hz
  | true => exact .command fm i hop hz (hi rfl)

theorem VReg.val_beq_zero (r : VReg) : (r.val == 0) = (r == 0) := by
  rw [Bool.eq_iff_iff, beq_iff_eq, beq_iff_eq, Fin.val_eq_zero_iff]

theorem toNat_beq_zero (f : Bool) : (f.toNat == 0) = !f := by cases f <;> rfl

/-- Each arm of the opcode map requires what the format of its opcode says must be zero. -/
theorem decodeFields_cases (op : Nat) (rd rs1 rs2 : VReg) (f : Bool) :
    FieldsDecode op rd rs1 rs2 f (decodeFields op rd rs1 rs2 f) := by
  unfold decodeFields
  split
  case h_26 => exact .reservedOpcode (by simp_all [formatOf])
  all_goals
    refine .of_requireZero _ rfl (by simp only [Format.mustBeZero, VReg.val_beq_zero, toNat_beq_zero]) fun hz => ?_
    simp only [Bool.and_eq_true, beq_iff_eq, Bool.not_eq_true'] at hz
    simp only [encode, hz]

/-! ### The decoder and the encoder undo each other -/

/-- Every command is encoded in fields that decode to it. -/
theorem encode_fields (i : Instr) : ∃ op rd rs1 rs2 f,
    op < 256 ∧ encode i = commandWord op rd rs1 rs2 f ∧ decodeFields op rd rs1 rs2 f = .ok i := by
  cases i <;> exact ⟨_, _, _, _, _, by decide, rfl, rfl⟩

/-- Settles O1: a command word decodes by its own fields. -/
theorem decodeOfEncode : Obligations.DecodeOfEncode := by
  intro i
  obtain ⟨op, rd, rs1, rs2, f, hop, hword, hfields⟩ := encode_fields i
  rw [hword, decode_commandWord op hop, hfields]

/-- Settles O2: a value that decodes is the command word of its own fields, and those are the fields of the encoding. -/
theorem encodeOfDecode : Obligations.EncodeOfDecode := by
  intro c i h
  obtain ⟨h1, h2, hfields⟩ := decode_ok_iff.1 h
  have hcases := decodeFields_cases (bitField c 7 0) (regField c 8) (regField c 12) (regField c 16)
    (bitField c 20 20 == 1)
  rw [hfields] at hcases
  cases hcases with
  | command _ _ _ _ hi => rw [hi, ← eq_commandWord h1 h2]

/-- Settles O5: each value is the encoding of the command beside it. -/
theorem encodingExamples : Obligations.EncodingExamples :=
  ⟨decodeOfEncode (.newcap 2 true), decodeOfEncode (.ldu 1), decodeOfEncode (.ldstr 1), decodeOfEncode (.copy 4 1),
    decodeOfEncode (.setb 3 true), decodeOfEncode (.getb 1), decodeOfEncode (.cmp 1 2), decodeOfEncode (.cmpu 2),
    decodeOfEncode (.xor 5 5 5), decodeOfEncode (.shl 2 1), decodeOfEncode (.add 3 1 2), decodeOfEncode (.div 3 1 2),
    decodeOfEncode (.mod 15 14 13), decodeOfEncode (.tostr 3), decodeOfEncode (.tobits 3)⟩

/-! ### The legal commands -/

/-- The fields decode to a command when their opcode has a format and its must-be-zero fields are 0. -/
theorem exists_decodeFields_ok_iff (op : Nat) (rd rs1 rs2 : VReg) (f : Bool) :
    (∃ i, decodeFields op rd rs1 rs2 f = .ok i) ↔
      ∃ fm, formatOf op = some fm ∧ fm.mustBeZero rd rs1 rs2 f.toNat = true := by
  have h := decodeFields_cases op rd rs1 rs2 f
  generalize decodeFields op rd rs1 rs2 f = r at h
  cases h with
  | reservedOpcode hop => simp [hop]
  | fieldNotZero fm hop hz => simp [hop, hz]
  | command fm i hop hz => simp [hop, hz]

theorem bitField_flag_toNat (c : Word64) : (bitField c 20 20 == 1).toNat = c.toNat / 2 ^ 20 % 2 := by
  show (c.toNat / 2 ^ 20 % 2 == 1).toNat = _
  rcases Nat.mod_two_eq_zero_or_one (c.toNat / 2 ^ 20) with h | h <;> rw [h] <;> rfl

/-- The four conditions of 30_encoding.md R84 in the decoder's fields. -/
theorem legalCommand_iff (c : Word64) : legalCommand c = true ↔
    bitField c 63 32 = 0 ∧ bitField c 31 21 = 0 ∧ ∃ fm, formatOf (bitField c 7 0) = some fm ∧
      fm.mustBeZero (regField c 8) (regField c 12) (regField c 16) (bitField c 20 20 == 1).toNat = true := by
  have hhigh : bitField c 63 32 = c.toNat / 2 ^ 32 := Nat.mod_eq_of_lt (by have := c.isLt; omega)
  have hop : bitField c 7 0 = c.toNat % 2 ^ 8 := by simp [bitField]
  rw [hhigh, hop, bitField_flag_toNat]
  simp only [legalCommand]
  cases formatOf (c.toNat % 2 ^ 8) with
  | none => simp
  | some fm => simp [bitField, regField, and_assoc]

/-- Settles O3. -/
theorem decodeAcceptsLegalCommands : Obligations.DecodeAcceptsLegalCommands := by
  intro c
  simp only [decode_ok_iff, exists_and_left, exists_decodeFields_ok_iff, legalCommand_iff]

end Sys2Proof

namespace Sys2Proof.Machine

/-! ### Illegal commands -/

/-- The engine's turn while a value that does not decode is in flight (30_encoding.md R84). -/
theorem engineTurn_of_error {s : State} {e : Illegal} (hb : s.busy = true) (h : decode s.cmd = .error e) :
    engineTurn s = .next (failedWith s .illegalCommand) := by
  simp [engineTurn, hb, complete, h]

/-- Settles O7: a value that is not legal does not decode. -/
theorem illegalCommandCompletes : Obligations.IllegalCommandCompletes := by
  intro s hb hillegal
  cases h : decode s.cmd with
  | ok i =>
    have hlegal := (decodeAcceptsLegalCommands s.cmd).1 ⟨i, h⟩
    simp [hillegal] at hlegal
  | error e => exact ⟨engineTurn_of_error hb h, rfl⟩

/-! ### Lines of a host program -/

/-- s after an accepted write of the command i, with es to arrive (60_exceptions.md R201). -/
def State.commandIssued (s : State) (i : Instr) (es : List Event) : State :=
  { s with cmd := encode i, busy := true, done := false, arrivals := es }.respond false none

@[simp] theorem State.readV_commandIssued (s : State) (i : Instr) (es : List Event) (r : VReg) :
    (s.commandIssued i es).readV r = s.readV r := rfl

/-- An `arg` line on an idle engine is one step: it sets ARG and no value register (30_encoding.md R87). -/
theorem step_of_argLine {s : State} {n : Word64} {rest : List Event} (hr : s.resetIn = false) (hb : s.busy = false)
    (ha : s.arrivals = (AsmLine.arg n).events ++ rest) :
    ∃ t : State, step s = .next t ∧ t.arg = n ∧ (∀ q, t.readV q = s.readV q) ∧ t.resetIn = false ∧ t.busy = false ∧
      t.arrivals = rest := by
  have harg := step_of_registerWrite ⟨hr, ha⟩ (State.writeArg_of_idle (s := { s with arrivals := rest }) hb n)
  exact ⟨_, harg, rfl, fun _ => rfl, hr, hb, rfl⟩

/-- A command line on an idle engine is three steps: the command is issued, completes as exec says, and STATUS is answered
(30_encoding.md R87; log entry 11). -/
theorem run_commandLine {s t : State} {i : Instr} {rest : List Event} (hr : s.resetIn = false) (hb : s.busy = false)
    (ha : s.arrivals = (AsmLine.command i).events ++ rest)
    (ht : exec i (s.commandIssued i (.read 0x18 8 :: rest)) = .next t) :
    ∃ u : State, core.run 3 s = .next u ∧ (∀ q, u.readV q = t.readV q) ∧ u.err = t.err ∧ u.busy = false ∧
      u.arrivals = rest ∧ u.response = some ⟨false, some u.statusWord⟩ := by
  have hissue : step s = .next (s.commandIssued i (.engine :: .read 0x18 8 :: rest)) :=
    (cmdWrite s _ (encode i) ⟨hr, ha⟩).1 hb
  have hengine : EngineNext (s.commandIssued i (.engine :: .read 0x18 8 :: rest)) (.read 0x18 8 :: rest) :=
    ⟨hr, .inl rfl⟩
  have hcomplete : step (s.commandIssued i (.engine :: .read 0x18 8 :: rest)) = .next t := by
    rw [step_of_engineNext hengine, ← ht]
    exact engineTurn_of_decode rfl (decodeOfEncode i)
  have hread : Arrives t (.read 0x18 8) rest := by rw [exec_frame ht]; exact ⟨hr, rfl⟩
  have hbusy : t.busy = false := by rw [exec_frame ht]
  rw [run_succ_of_step hissue, run_succ_of_step hcomplete, run_succ_of_step (step_of_registerRead hread rfl)]
  exact ⟨_, rfl, fun _ => rfl, rfl, hbusy, rfl, rfl⟩

/-- LDU writes the minimal value of magnitude ARG (40_construction.md R102). -/
theorem exec_ldu {s : State} {n : Word64} (h : s.arg = n) (rd : VReg) :
    exec (.ldu rd) s = .next (valueWritten s rd (minimal n.toNat)) := by
  subst h; rfl

/-- Settles O59: the `arg` line, then the command line of LDU. -/
theorem loadPseudoInstruction : Obligations.LoadPseudoInstruction := by
  intro s vD n rest hr hb ha
  obtain ⟨u, hstep, harg, hu, hr, hb, ha⟩ :=
    step_of_argLine (rest := (AsmLine.command (.ldu vD)).events ++ rest) hr hb ha
  obtain ⟨t, hrun, ht, herr, hdone⟩ := run_commandLine hr hb ha (exec_ldu (s := u.commandIssued _ _) harg vD)
  have hvD : t.readV vD = minimal n.toNat := (ht vD).trans (readV_valueWritten_same _ _ _)
  refine ⟨t, (run_succ_of_step hstep 3).trans hrun, ?_, congrArg Value.val hvD, herr, fun q hq => ?_, hdone⟩
  · rw [hvD]; exact minimal_Minimal _
  · rw [ht, readV_valueWritten, if_neg hq, State.readV_commandIssued, hu]

end Sys2Proof.Machine

/-! PROOFS. The statements about the construction commands of 40_construction.md: NEWCAP, LDU, LDSTR and COPY. -/

namespace Sys2Proof.Machine

/-! ### NEWCAP -/

theorem exec_newcap_of_fits {s : State} (h : s.arg.toNat ≤ s.params.maxBits) (rd : VReg) (f : Bool) :
    exec (.newcap rd f) s = .next (valueWritten s rd ⟨s.arg.toNat, if f then ones s.arg.toNat else 0⟩) :=
  if_neg (Nat.not_lt.2 h)

theorem exec_newcap_of_overflow {s : State} (h : s.params.maxBits < s.arg.toNat) (rd : VReg) (f : Bool) :
    exec (.newcap rd f) s = .next (failedWith s .overflow) :=
  if_pos h

/-- The magnitude of n positions that are all f (40_construction.md R100, 41_structural.md R124). -/
theorem testBit_filled (f : Bool) (n i : Nat) : (if f then ones n else 0).testBit i = (f && decide (i < n)) := by
  cases f with
  | false => exact Nat.zero_testBit i
  | true => exact ones_testBit n i

/-- Settles O9: whether ARG fits MAX_BITS decides, and the bits of the value are those of testBit_filled. -/
theorem newcapMeaning : Obligations.NewcapMeaning := fun rd f s =>
  ⟨fun h => ⟨_, exec_newcap_of_fits h rd f, rfl, rfl, testBit_filled f s.arg.toNat⟩,
    fun h => exec_newcap_of_overflow h rd f, decodeOfEncode (.newcap rd f)⟩

/-! ### LDU -/

/-- Settles O10: ARG has 64 bits and a legal MAX_BITS is at least 64. -/
theorem lduMeaning : Obligations.LduMeaning := fun rd s =>
  ⟨⟨minimal s.arg.toNat, exec_ldu rfl rd, minimal_Minimal _, rfl,
      fun ⟨h64, _⟩ => minimal_wf s.arg.isLt (by decide) h64⟩,
    decodeOfEncode (.ldu rd)⟩

/-! ### LDSTR -/

theorem exec_ldstr_of_overflow {s : State} (h : s.params.maxBits < s.clen.toNat) (rd : VReg) :
    exec (.ldstr rd) s = .next (failedWith s .overflow) :=
  if_pos h

section Fits

variable {s : State} (hfits : s.clen.toNat ≤ s.params.maxBits) (rd : VReg)
include hfits

theorem exec_ldstr_of_value {v : Nat} (h : parseBits s.cbuf s.clen.toNat 0 0 = .value v) :
    exec (.ldstr rd) s = .next (valueWritten s rd ⟨s.clen.toNat, v⟩) := by
  simp [exec, execLdstr, hfits, h]

theorem exec_ldstr_of_badChar (h : parseBits s.cbuf s.clen.toNat 0 0 = .badChar) :
    exec (.ldstr rd) s = .next (failedWith s .invalidFormat) := by
  simp [exec, execLdstr, hfits, h]

theorem exec_ldstr_of_unwritten {j : Nat} (h : parseBits s.cbuf s.clen.toNat 0 0 = .unwritten j) :
    exec (.ldstr rd) s = .fault (.unwrittenChar j) := by
  simp [exec, execLdstr, hfits, h]

end Fits

/-- A byte of the string operand as parseBits reads it, counting from CBUF[0]. -/
theorem read_cbuf_zero_add (s : State) (i : Nat) : Mem.read s.cbuf (0 + i) = s.cbufByte i := by
  rw [Nat.zero_add, State.cbufByte]

section StringOperand

variable {s : State} {n k : Nat}

/-- The n bytes of a string of binary digits, most significant first, are the bits of the number read. -/
theorem parseCbuf_of_digits (h : ∀ i, i < n → s.cbufByte i = some 0x30#8 ∨ s.cbufByte i = some 0x31#8) :
    ∃ v, parseBits s.cbuf n 0 0 = .value v ∧ v < 2 ^ n ∧
      ∀ i, i < n → v.testBit (n - 1 - i) = (s.cbufByte i == some 0x31#8) := by
  obtain ⟨v, hv, -, hbits⟩ := parseBits_digits s.cbuf n 0 0 (by simpa only [read_cbuf_zero_add] using h)
  simp only [read_cbuf_zero_add] at hbits
  exact ⟨v, hv, by simpa using parseBits_lt hv, hbits⟩

variable (hk : k < n) (hlow : ∀ i, i < k → s.cbufByte i = some 0x30#8 ∨ s.cbufByte i = some 0x31#8)
include hk hlow

theorem parseCbuf_of_badChar {c : Byte} (hc : s.cbufByte k = some c) (h0 : c ≠ 0x30#8) (h1 : c ≠ 0x31#8) :
    parseBits s.cbuf n 0 0 = .badChar := by
  have hstop := parseBits_stop s.cbuf n 0 0 k hk
  simp only [read_cbuf_zero_add, hc] at hstop
  exact hstop hlow (by simpa) (by simpa)

theorem parseCbuf_of_unwritten (hnone : s.cbufByte k = none) : parseBits s.cbuf n 0 0 = .unwritten k := by
  have hstop := parseBits_stop s.cbuf n 0 0 k hk
  simp only [read_cbuf_zero_add, hnone] at hstop
  simpa only [Nat.zero_add] using hstop hlow (by simp) (by simp)

end StringOperand

/-- Settles O11: the Overflow test comes first, then the first byte that is no binary digit decides. -/
theorem ldstrMeaning : Obligations.LdstrMeaning := by
  refine fun rd s => ⟨fun hfits hdigits => ?_, fun h => exec_ldstr_of_overflow h rd,
    fun k c hfits hk hlow hc h0 h1 => exec_ldstr_of_badChar hfits rd (parseCbuf_of_badChar hk hlow hc h0 h1),
    fun k hfits hk hlow hnone => exec_ldstr_of_unwritten hfits rd (parseCbuf_of_unwritten hk hlow hnone),
    decodeOfEncode (.ldstr rd)⟩
  obtain ⟨v, hv, hlt, hbits⟩ := parseCbuf_of_digits hdigits
  exact ⟨⟨s.clen.toNat, v⟩, exec_ldstr_of_value hfits rd hv, rfl, hlt, hbits⟩

/-! ### COPY -/

theorem exec_copy (rd rs1 : VReg) (s : State) : exec (.copy rd rs1) s = .next (valueWritten s rd (s.readV rs1)) := rfl

/-- Writing a value register its own value writes nothing. -/
theorem valueWritten_readV_same (s : State) (r : VReg) : valueWritten s r (s.readV r) = nothingWritten s := by
  simp [valueWritten, nothingWritten, State.readV]

/-- Settles O12: with rd = rs1 the register is written its own value. -/
theorem copyMeaning : Obligations.CopyMeaning := by
  refine fun rd rs1 s => ⟨exec_copy rd rs1 s, ?_, decodeOfEncode (.copy rd rs1)⟩
  rintro rfl
  rw [exec_copy, valueWritten_readV_same]

end Sys2Proof.Machine

/-! PROOFS. The statements about the structural commands of 41_structural.md: EXPAND, TRIM, GETB, SETB, SETALL and SIZE. -/

namespace Sys2Proof.Machine

/-! ### EXPAND -/

theorem exec_expand_of_le {s : State} {rd : VReg} (h : s.arg.toNat ≤ (s.readV rd).len) (f : Bool) :
    exec (.expand rd f) s = .next (nothingWritten s) :=
  if_pos h

theorem exec_expand_of_overflow {s : State} {rd : VReg} (hlen : (s.readV rd).len < s.arg.toNat)
    (hmax : s.params.maxBits < s.arg.toNat) (f : Bool) :
    exec (.expand rd f) s = .next (failedWith s .overflow) :=
  (if_neg (Nat.not_le.2 hlen)).trans (if_pos hmax)

theorem exec_expand_of_fits {s : State} {rd : VReg} (hlen : (s.readV rd).len < s.arg.toNat)
    (hmax : s.arg.toNat ≤ s.params.maxBits) (f : Bool) :
    exec (.expand rd f) s = .next (valueWritten s rd
      ⟨s.arg.toNat, (s.readV rd).val + if f then ones s.arg.toNat - ones (s.readV rd).len else 0⟩) :=
  (if_neg (Nat.not_le.2 hlen)).trans (if_neg (Nat.not_lt.2 hmax))

/-- The positions from l to n - 1 are n - l positions, l places up. -/
theorem ones_sub_ones {l n : Nat} (h : l ≤ n) : ones n - ones l = 2 ^ l * ones (n - l) := by
  have hpow : 2 ^ l * 2 ^ (n - l) = 2 ^ n := by rw [← Nat.pow_add, Nat.add_sub_cancel' h]
  have hpos := Nat.two_pow_pos l
  simp only [ones, Nat.mul_sub, hpow]
  omega

/-- Filling the positions from l to n - 1 above a magnitude of l bits makes them f and keeps those below
(41_structural.md R120). -/
theorem testBit_add_fill {v l n : Nat} (hv : v < 2 ^ l) (hln : l < n) (f : Bool) (i : Nat) :
    (v + if f then ones n - ones l else 0).testBit i = if i < l then v.testBit i else f && decide (i < n) := by
  have hfill : (if f then ones n - ones l else 0) = 2 ^ l * if f then ones (n - l) else 0 := by
    rw [ones_sub_ones hln.le, mul_ite, Nat.mul_zero]
  rw [hfill, Nat.add_comm, Nat.testBit_two_pow_mul_add _ hv, testBit_filled]
  split
  case isTrue => rfl
  case isFalse hi => simp only [Nat.sub_lt_sub_iff_right (Nat.le_of_not_lt hi)]

/-- Settles O13: the no-op test, then the Overflow test; the bits of the value are those of testBit_add_fill. -/
theorem expandMeaning : Obligations.ExpandMeaning := fun rd f _ =>
  ⟨fun h => exec_expand_of_le h f, fun hlen hmax => exec_expand_of_overflow hlen hmax f,
    fun hlen hmax => ⟨_, exec_expand_of_fits hlen hmax f, rfl, rfl, fun hv => testBit_add_fill hv hlen f⟩,
    decodeOfEncode (.expand rd f)⟩

/-! ### TRIM -/

theorem exec_trim (rd : VReg) (s : State) :
    exec (.trim rd) s = .next (valueWritten s rd (minimal (s.readV rd).val)) := rfl

/-- The second of two commands that write a register decides what it leaves. -/
@[simp] theorem valueWritten_valueWritten_same (s : State) (r : VReg) (x y : Value) :
    valueWritten (valueWritten s r x) r y = valueWritten s r y := by
  simp [valueWritten]

/-- Settles O14: TRIM of the result writes the minimal value of the same magnitude again. -/
theorem trimMeaning : Obligations.TrimMeaning := by
  refine fun rd s => ⟨⟨_, exec_trim rd s, minimal_Minimal _, rfl, ?_⟩, decodeOfEncode (.trim rd)⟩
  rw [exec_trim, readV_valueWritten_same, valueWritten_valueWritten_same]
  rfl

/-! ### GETB -/

theorem exec_getb (rs1 : VReg) (s : State) :
    exec (.getb rs1) s = .next (resultWritten s (BitVec.ofNat 64 ((s.readV rs1).bit s.arg.toNat))) := rfl

/-- A bit of a value as a number: 1 for a set position below the length, 0 for any other (10_state.md R21). -/
theorem Value.bit_eq (x : Value) (i : Nat) : x.bit i = if i < x.len ∧ x.val.testBit i = true then 1 else 0 := by
  rw [Value.bit, ← Nat.toNat_testBit, ite_and, Bool.toNat, Bool.cond_eq_ite]

/-- Settles O15: RESULT is the bit that Value.bit_eq gives. -/
theorem getbMeaning : Obligations.GetbMeaning := fun rs1 s =>
  ⟨by rw [exec_getb, Value.bit_eq, apply_ite (BitVec.ofNat 64)], decodeOfEncode (.getb rs1)⟩

/-! ### SETB -/

theorem exec_setb_of_ge {s : State} {rd : VReg} (h : (s.readV rd).len ≤ s.arg.toNat) (f : Bool) :
    exec (.setb rd f) s = .next (nothingWritten s) :=
  if_pos h

theorem exec_setb_of_lt {s : State} {rd : VReg} (h : s.arg.toNat < (s.readV rd).len) (f : Bool) :
    exec (.setb rd f) s = .next (valueWritten s rd ⟨(s.readV rd).len,
      if f then (s.readV rd).val ||| 2 ^ s.arg.toNat
      else (s.readV rd).val &&& (ones (s.readV rd).len - 2 ^ s.arg.toNat)⟩) :=
  if_neg (Nat.not_le.2 h)

/-- A magnitude of l bits has no bit at or above position l (10_state.md R21). -/
theorem lt_of_testBit_of_lt_two_pow {v l i : Nat} (hv : v < 2 ^ l) (h : v.testBit i = true) : i < l :=
  (Nat.pow_lt_pow_iff_right (by decide)).1 ((Nat.ge_two_pow_of_testBit h).trans_lt hv)

/-- The mask of l positions without position p. -/
theorem ones_sub_two_pow_testBit {p l : Nat} (h : p < l) (i : Nat) :
    (ones l - 2 ^ p).testBit i = (decide (i < l) && !decide (p = i)) := by
  have hpow : 2 ^ p < 2 ^ l := Nat.pow_lt_pow_right (by decide) h
  rw [ones, Nat.sub_sub, Nat.add_comm, Nat.testBit_two_pow_sub_succ hpow, Nat.testBit_two_pow]

/-- Setting or clearing position p of a magnitude of l bits makes it f and keeps every other (41_structural.md R123). -/
theorem testBit_setBit {v p l : Nat} (hv : v < 2 ^ l) (hp : p < l) (f : Bool) (i : Nat) :
    (if f then v ||| 2 ^ p else v &&& (ones l - 2 ^ p)).testBit i = if i = p then f else v.testBit i := by
  cases f with
  | true =>
    rw [if_pos rfl, Nat.testBit_or, Nat.testBit_two_pow]
    rcases eq_or_ne i p with rfl | hi
    · simp
    · simp [hi, hi.symm]
  | false =>
    have hbelow := lt_of_testBit_of_lt_two_pow hv (i := i)
    rw [if_neg (by decide), Nat.testBit_and, ones_sub_two_pow_testBit hp]
    rcases eq_or_ne i p with rfl | hi
    · simp
    · simpa [hi, hi.symm] using hbelow

/-- Settles O16: the no-op test; the bits of the value are those of testBit_setBit. -/
theorem setbMeaning : Obligations.SetbMeaning := fun rd f _ =>
  ⟨fun h => exec_setb_of_ge h f,
    fun h => ⟨_, exec_setb_of_lt h f, rfl, rfl, fun hv => testBit_setBit hv h f⟩,
    decodeOfEncode (.setb rd f)⟩

/-! ### SETALL -/

theorem exec_setall (rd : VReg) (f : Bool) (s : State) :
    exec (.setall rd f) s = .next (valueWritten s rd
      ⟨(s.readV rd).len, if f then ones (s.readV rd).len else 0⟩) := rfl

/-- Settles O17: the bits of the value are those of testBit_filled. -/
theorem setallMeaning : Obligations.SetallMeaning := fun rd f s =>
  ⟨⟨_, exec_setall rd f s, rfl, rfl, testBit_filled f _⟩, decodeOfEncode (.setall rd f)⟩

/-! ### SIZE -/

theorem exec_size (rs1 : VReg) (s : State) :
    exec (.size rs1) s = .next (resultWritten s (BitVec.ofNat 64 (s.readV rs1).len)) := rfl

/-- A legal length fits 64 bits (00_scope.md R8, 10_state.md R22). -/
theorem Value.wf.len_lt {p : Params} {x : Value} (hp : p.legal) (hx : x.wf p) : x.len < 2 ^ 64 := by
  obtain ⟨-, hmax, -⟩ := hp
  obtain ⟨-, hlen⟩ := hx
  omega

/-- Settles O18: the stored length fits RESULT. -/
theorem sizeMeaning : Obligations.SizeMeaning := fun rs1 s hp hx =>
  ⟨⟨_, exec_size rs1 s, Nat.mod_eq_of_lt (hx.len_lt hp)⟩, decodeOfEncode (.size rs1)⟩

end Sys2Proof.Machine

/-! PROOFS. The statement about the comparison commands of 42_compare.md: CMP and CMPU. -/

namespace Sys2Proof.Machine

/-! ### The comparison code (42_compare.md R140) -/

theorem compareCode_self (a : Nat) : compareCode a a = 0 := if_pos rfl

theorem compareCode_of_lt {a b : Nat} (h : a < b) : compareCode a b = 1 := (if_neg h.ne).trans (if_pos h)

theorem compareCode_of_gt {a b : Nat} (h : b < a) : compareCode a b = 2 := (if_neg h.ne').trans (if_neg h.not_gt)

/-- Each of the three codes, as RESULT holds it, says exactly one of equal, less and greater. -/
theorem compareCode_word_iff (a b : Nat) :
    (BitVec.ofNat 64 (compareCode a b) = 0#64 ↔ a = b) ∧ (BitVec.ofNat 64 (compareCode a b) = 1#64 ↔ a < b) ∧
      (BitVec.ofNat 64 (compareCode a b) = 2#64 ↔ b < a) := by
  rcases lt_trichotomy a b with h | rfl | h
  · simp [compareCode_of_lt h, h, h.ne, h.le]
  · simp [compareCode_self]
  · simp [compareCode_of_gt h, h, h.ne', h.le]

/-! ### CMP and CMPU -/

theorem exec_cmp (rs1 rs2 : VReg) (s : State) :
    exec (.cmp rs1 rs2) s =
      .next (resultWritten s (BitVec.ofNat 64 (compareCode (s.readV rs1).val (s.readV rs2).val))) := rfl

theorem exec_cmpu (rs1 : VReg) (s : State) :
    exec (.cmpu rs1) s =
      .next (resultWritten s (BitVec.ofNat 64 (compareCode (s.readV rs1).val s.arg.toNat))) := rfl

/-- Settles O19: each command leaves the code of its two magnitudes in RESULT, read by compareCode_word_iff. -/
theorem compareMeaning : Obligations.CompareMeaning := fun rs1 rs2 s =>
  ⟨⟨_, exec_cmp rs1 rs2 s, compareCode_word_iff _ _⟩, ⟨_, exec_cmpu rs1 s, compareCode_word_iff _ _⟩,
    decodeOfEncode (.cmp rs1 rs2), decodeOfEncode (.cmpu rs1)⟩

end Sys2Proof.Machine

/-! PROOFS. The statements about the bitwise commands of 43_bitwise.md: AND, OR, XOR and NOT. -/

namespace Sys2Proof.Machine

/-! ### AND, OR and XOR -/

/-- A command of two operands whose operation works bit by bit writes only rd, at the larger width (43_bitwise.md R150). -/
theorem commitBitwise_spec {f : Nat → Nat → Nat} {op : Bool → Bool → Bool}
    (hbits : ∀ a b k, (f a b).testBit k = op (a.testBit k) (b.testBit k)) (rd rs1 rs2 : VReg) (s : State) :
    ∃ y : Value, commitBitwise f rd rs1 rs2 s = .next (valueWritten s rd y) ∧
      y.len = max (s.readV rs1).len (s.readV rs2).len ∧
      ∀ k, y.val.testBit k = op ((s.readV rs1).val.testBit k) ((s.readV rs2).val.testBit k) :=
  ⟨_, commitBitwise_eq f rd rs1 rs2 s, rfl, hbits _ _⟩

/-- Settles O20: each of the three magnitudes is made bit by bit. -/
theorem bitwiseMeaning : Obligations.BitwiseMeaning := by
  intro rd rs1 rs2 s i op code h
  simp only [List.mem_cons, List.not_mem_nil, or_false, Prod.mk.injEq] at h
  rcases h with ⟨rfl, rfl, rfl⟩ | ⟨rfl, rfl, rfl⟩ | ⟨rfl, rfl, rfl⟩
  · exact ⟨commitBitwise_spec Nat.testBit_and rd rs1 rs2 s, decodeOfEncode (.and rd rs1 rs2)⟩
  · exact ⟨commitBitwise_spec Nat.testBit_or rd rs1 rs2 s, decodeOfEncode (.or rd rs1 rs2)⟩
  · exact ⟨commitBitwise_spec Nat.testBit_xor rd rs1 rs2 s, decodeOfEncode (.xor rd rs1 rs2)⟩

/-! ### NOT -/

theorem exec_not (rd rs1 : VReg) (s : State) :
    exec (.not rd rs1) s = .next (valueWritten s rd ⟨(s.readV rs1).len, ones (s.readV rs1).len - (s.readV rs1).val⟩) :=
  rfl

/-- The complement of a magnitude of l bits has exactly the clear positions below l (43_bitwise.md R154). -/
theorem ones_sub_testBit {v l : Nat} (hv : v < 2 ^ l) (k : Nat) :
    (ones l - v).testBit k = (decide (k < l) && !v.testBit k) := by
  rw [ones, Nat.sub_sub, Nat.add_comm, Nat.testBit_two_pow_sub_succ hv]

theorem ones_sub_ones_sub {v l : Nat} (hv : v < 2 ^ l) : ones l - (ones l - v) = v :=
  Nat.sub_sub_self (Nat.le_sub_one_of_lt hv)

/-- Settles O21: the bits are those of ones_sub_testBit, and ones_sub_ones_sub takes the second complement back. -/
theorem notMeaning : Obligations.NotMeaning := by
  refine fun rd rs1 s hv => ⟨⟨_, exec_not rd rs1 s, rfl, ones_sub_testBit hv, fun q => ?_⟩, decodeOfEncode (.not rd rs1)⟩
  rw [exec_not, readV_valueWritten_same, ones_sub_ones_sub hv]

end Sys2Proof.Machine

/-! PROOFS. The statements about the shift commands of 44_shift.md: SHL and SHR. -/

namespace Sys2Proof.Machine

/-! ### SHL -/

theorem exec_shl_of_fits {s : State} {rs1 : VReg} (h : (s.readV rs1).len + s.arg.toNat ≤ s.params.maxBits)
    (rd : VReg) :
    exec (.shl rd rs1) s = .next (valueWritten s rd
      ⟨(s.readV rs1).len + s.arg.toNat, (s.readV rs1).val * 2 ^ s.arg.toNat⟩) :=
  if_neg (Nat.not_lt.2 h)

theorem exec_shl_of_overflow {s : State} {rs1 : VReg} (h : s.params.maxBits < (s.readV rs1).len + s.arg.toNat)
    (rd : VReg) :
    exec (.shl rd rs1) s = .next (failedWith s .overflow) :=
  if_pos h

/-- Settles O22: the Overflow test is on the sum of the length and ARG as natural numbers, which does not wrap. -/
theorem shlMeaning : Obligations.ShlMeaning := fun rd rs1 _ =>
  ⟨fun h => ⟨_, exec_shl_of_fits h rd, rfl, rfl⟩, fun h => exec_shl_of_overflow h rd, decodeOfEncode (.shl rd rs1)⟩

/-! ### SHR -/

theorem exec_shr_of_le {s : State} {rs1 : VReg} (h : (s.readV rs1).len ≤ s.arg.toNat) (rd : VReg) :
    exec (.shr rd rs1) s = .next (valueWritten s rd .zero1) :=
  if_pos h

theorem exec_shr_of_lt {s : State} {rs1 : VReg} (h : s.arg.toNat < (s.readV rs1).len) (rd : VReg) :
    exec (.shr rd rs1) s = .next (valueWritten s rd
      ⟨(s.readV rs1).len - s.arg.toNat, (s.readV rs1).val / 2 ^ s.arg.toNat⟩) :=
  if_neg (Nat.not_le.2 h)

/-- Settles O23: the quotient by 2 ^ ARG has the operand's bits ARG places up (Nat.testBit_div_two_pow). -/
theorem shrMeaning : Obligations.ShrMeaning := fun rd rs1 _ =>
  ⟨fun h => exec_shr_of_le h rd, fun h => ⟨_, exec_shr_of_lt h rd, rfl, rfl, fun _ => Nat.testBit_div_two_pow _ _⟩,
    decodeOfEncode (.shr rd rs1)⟩

end Sys2Proof.Machine

/-! PROOFS. The statements about the arithmetic commands of 45_addsub.md: ADD and SUB. -/

namespace Sys2Proof.Machine

/-! ### ADD -/

theorem exec_add_of_fits {s : State} {rs1 rs2 : VReg}
    (h : max (s.readV rs1).len (s.readV rs2).len + 1 ≤ s.params.maxBits) (rd : VReg) :
    exec (.add rd rs1 rs2) s = .next (valueWritten s rd (minimal ((s.readV rs1).val + (s.readV rs2).val))) :=
  if_neg (Nat.not_lt.2 h)

theorem exec_add_of_overflow {s : State} {rs1 rs2 : VReg}
    (h : s.params.maxBits < max (s.readV rs1).len (s.readV rs2).len + 1) (rd : VReg) :
    exec (.add rd rs1 rs2) s = .next (failedWith s .overflow) :=
  if_pos h

/-- Settles O25: the stored lengths decide Overflow, and the sum is written at its minimal length. -/
theorem addMeaning : Obligations.AddMeaning := fun rd rs1 rs2 _ =>
  ⟨fun h => ⟨_, exec_add_of_fits h rd, minimal_Minimal _, rfl⟩, fun h => exec_add_of_overflow h rd,
    decodeOfEncode (.add rd rs1 rs2)⟩

/-! ### SUB -/

theorem exec_sub_of_lt {s : State} {rs1 rs2 : VReg} (h : (s.readV rs1).val < (s.readV rs2).val) (rd : VReg) :
    exec (.sub rd rs1 rs2) s = .next (valueWritten s rd .zero1) :=
  if_pos h

theorem exec_sub_of_ge {s : State} {rs1 rs2 : VReg} (h : (s.readV rs2).val ≤ (s.readV rs1).val) (rd : VReg) :
    exec (.sub rd rs1 rs2) s = .next (valueWritten s rd (minimal ((s.readV rs1).val - (s.readV rs2).val))) :=
  if_neg (Nat.not_lt.2 h)

/-- Settles O26: the magnitudes decide the clamp, and where b <= a the truncated difference is exact
(Nat.sub_add_cancel). -/
theorem subMeaning : Obligations.SubMeaning := fun rd rs1 rs2 _ =>
  ⟨fun h => exec_sub_of_lt h rd, fun h => ⟨_, exec_sub_of_ge h rd, minimal_Minimal _, Nat.sub_add_cancel h⟩,
    decodeOfEncode (.sub rd rs1 rs2)⟩

end Sys2Proof.Machine

/-! PROOFS. The statements about the arithmetic commands of 46_muldiv.md: MUL, DIV and MOD. -/

namespace Sys2Proof.Machine

/-! ### MUL -/

theorem exec_mul_of_zero {s : State} {rs1 rs2 : VReg} (h : (s.readV rs1).val = 0 ∨ (s.readV rs2).val = 0)
    (rd : VReg) :
    exec (.mul rd rs1 rs2) s = .next (valueWritten s rd .zero1) :=
  if_pos h

theorem exec_mul_of_overflow {s : State} {rs1 rs2 : VReg} (ha : (s.readV rs1).val ≠ 0) (hb : (s.readV rs2).val ≠ 0)
    (h : s.params.maxBits < (s.readV rs1).len + (s.readV rs2).len) (rd : VReg) :
    exec (.mul rd rs1 rs2) s = .next (failedWith s .overflow) :=
  (if_neg (not_or.2 ⟨ha, hb⟩)).trans (if_pos h)

theorem exec_mul_of_fits {s : State} {rs1 rs2 : VReg} (ha : (s.readV rs1).val ≠ 0) (hb : (s.readV rs2).val ≠ 0)
    (h : (s.readV rs1).len + (s.readV rs2).len ≤ s.params.maxBits) (rd : VReg) :
    exec (.mul rd rs1 rs2) s = .next (valueWritten s rd (minimal ((s.readV rs1).val * (s.readV rs2).val))) :=
  (if_neg (not_or.2 ⟨ha, hb⟩)).trans (if_neg (Nat.not_lt.2 h))

/-- Settles O28: a zero operand is tested before the stored lengths, and the product is written at its minimal length. -/
theorem mulMeaning : Obligations.MulMeaning := fun rd rs1 rs2 _ =>
  ⟨fun h => exec_mul_of_zero h rd, fun ha hb h => exec_mul_of_overflow ha hb h rd,
    fun ha hb h => ⟨_, exec_mul_of_fits ha hb h rd, minimal_Minimal _, rfl⟩, decodeOfEncode (.mul rd rs1 rs2)⟩

/-! ### DIV and MOD -/

theorem exec_div_of_zero {s : State} {rs2 : VReg} (h : (s.readV rs2).val = 0) (rd rs1 : VReg) :
    exec (.div rd rs1 rs2) s = .next (failedWith s .divisionByZero) :=
  if_pos h

theorem exec_div_of_nonzero {s : State} {rs2 : VReg} (h : (s.readV rs2).val ≠ 0) (rd rs1 : VReg) :
    exec (.div rd rs1 rs2) s = .next (valueWritten s rd (minimal ((s.readV rs1).val / (s.readV rs2).val))) :=
  if_neg h

theorem exec_mod_of_zero {s : State} {rs2 : VReg} (h : (s.readV rs2).val = 0) (rd rs1 : VReg) :
    exec (.mod rd rs1 rs2) s = .next (failedWith s .divisionByZero) :=
  if_pos h

theorem exec_mod_of_nonzero {s : State} {rs2 : VReg} (h : (s.readV rs2).val ≠ 0) (rd rs1 : VReg) :
    exec (.mod rd rs1 rs2) s = .next (valueWritten s rd (minimal ((s.readV rs1).val % (s.readV rs2).val))) :=
  if_neg h

/-- Settles O29: the divisor's magnitude alone decides DivisionByZero; quotient and remainder are written at their minimal
lengths. -/
theorem divModMeaning : Obligations.DivModMeaning := fun rd rs1 rs2 _ =>
  ⟨fun h => ⟨exec_div_of_zero h rd rs1, exec_mod_of_zero h rd rs1⟩,
    fun h => ⟨_, _, exec_div_of_nonzero h rd rs1, exec_mod_of_nonzero h rd rs1, minimal_Minimal _, minimal_Minimal _,
      rfl, rfl⟩,
    decodeOfEncode (.div rd rs1 rs2), decodeOfEncode (.mod rd rs1 rs2)⟩

end Sys2Proof.Machine

/-! PROOFS. The statements about the text commands of 47_conversion.md: TOSTR and TOBITS, and the frame they share. -/

namespace Sys2Proof.Machine

/-! ### A text in CBUF -/

/-- Two descriptions of a text that agree below its length describe the same text. -/
theorem TextWritten.congr {s t : State} {k : Nat} {char char' : Nat → Byte} (h : TextWritten s t k char)
    (hc : ∀ j, j < k → char j = char' j) : TextWritten s t k char' := by
  obtain ⟨ht, hclen, hlow, hhigh⟩ := h
  exact ⟨ht, hclen, fun j hj => hc j hj ▸ hlow j hj, hhigh⟩

/-- No byte above the text is written, whatever the length of the text: what commitText_spec says of CLEN needs a length
below 2^64, this does not. -/
theorem commitText_cbufByte_of_le {s t : State} {text : List Byte} (h : commitText s text = .next t) {j : Nat}
    (hj : text.length ≤ j) : t.cbufByte j = s.cbufByte j := by
  cases h
  exact (Mem.read_writeBytes s.cbuf 0 text j).trans (if_neg (by omega))

/-- Texts of at most MAX_BITS characters fit CBUF, and their number fits CLEN (00_scope.md R8, R9). -/
theorem text_fits_of_legal {p : Params} (hp : p.legal) {k : Nat} (hk : k ≤ p.maxBits) :
    k ≤ p.cbufSize ∧ k < 2 ^ 64 := by
  obtain ⟨-, hmax, hsize, -⟩ := hp
  omega

/-! ### TOSTR -/

theorem exec_tostr_of_base {s : State} (hlo : 2 ≤ s.arg.toNat) (hhi : s.arg.toNat ≤ 36) (rs1 : VReg) :
    exec (.tostr rs1) s = commitText s ((digits s.arg.toNat (s.readV rs1).val).map digitChar) :=
  if_neg (by simp only [State.argNat]; omega)

theorem exec_tostr_of_badBase {s : State} (h : s.arg.toNat < 2 ∨ 36 < s.arg.toNat) (rs1 : VReg) :
    exec (.tostr rs1) s = .next (failedWith s .invalidArgument) :=
  if_pos h

/-- A legal content has at most MAX_BITS digits, in any base: no more than it has bits. -/
theorem Value.wf.digits_length_le {p : Params} {x : Value} (hx : x.wf p) (hp : p.legal) {b : Nat} (hb : 2 ≤ b) :
    (digits b x.val).length ≤ p.maxBits := by
  obtain ⟨-, -, -, -, -, hlen⟩ := digits_spec b x.val hb
  exact hlen.trans (minimal_wf_of_le hp hx le_rfl).2

theorem digitChars_getD {ds : List Nat} {j : Nat} (hj : j < ds.length) :
    (ds.map digitChar)[j]?.getD 0 = digitChar (ds.getD j 0) := by
  simp [hj]

/-- Settles O31: the digits are those of digits_spec, and there are few enough of them for CBUF and CLEN. -/
theorem tostrMeaning : Obligations.TostrMeaning := by
  refine fun rs1 s => ⟨fun hp hx hlo hhi => ?_, fun h => exec_tostr_of_badBase h rs1, decodeOfEncode (.tostr rs1)⟩
  obtain ⟨hbelow, hzero, hhead, hspells, -⟩ := digits_spec s.arg.toNat (s.readV rs1).val hlo
  obtain ⟨hcbuf, hclen⟩ := text_fits_of_legal hp (hx.digits_length_le hp hlo)
  obtain ⟨t, ht, hw⟩ := commitText_spec s ((digits s.arg.toNat (s.readV rs1).val).map digitChar)
    (by rwa [List.length_map])
  rw [List.length_map] at hw
  exact ⟨t, _, (exec_tostr_of_base hlo hhi rs1).trans ht, hbelow, hzero, hhead, hspells, hcbuf,
    hw.congr fun j hj => digitChars_getD hj⟩

/-! ### TOBITS -/

theorem exec_tobits (rs1 : VReg) (s : State) :
    exec (.tobits rs1) s = commitText s (bitChars (s.readV rs1).len (s.readV rs1).val) := rfl

/-- The character of one bit (47_conversion.md R191). -/
theorem bitChar_eq (v i : Nat) :
    BitVec.ofNat 8 (0x30 + v / 2 ^ i % 2) = if v.testBit i then 0x31#8 else 0x30#8 := by
  rw [Nat.testBit_eq_decide_div_mod_eq]
  rcases Nat.mod_two_eq_zero_or_one (v / 2 ^ i) with h | h <;> rw [h] <;> rfl

theorem bitChars_getD {l v j : Nat} (hj : j < l) :
    (bitChars l v)[j]?.getD 0 = if v.testBit (l - 1 - j) then 0x31#8 else 0x30#8 := by
  rw [bitChars_getElem? l v j hj, Option.getD_some, bitChar_eq]

/-- Settles O32: the text is the characters of the stored bits, as many as the length, which fits CBUF and CLEN. -/
theorem tobitsMeaning : Obligations.TobitsMeaning := by
  refine fun rs1 s hp hx => ⟨?_, decodeOfEncode (.tobits rs1)⟩
  obtain ⟨hcbuf, hclen⟩ := text_fits_of_legal hp hx.2
  obtain ⟨t, ht, hw⟩ := commitText_spec s (bitChars (s.readV rs1).len (s.readV rs1).val) (by rwa [bitChars_length])
  rw [bitChars_length] at hw
  exact ⟨t, (exec_tobits rs1 s).trans ht, hcbuf, hw.congr fun j hj => bitChars_getD hj⟩

/-! ### The frame of the text commands -/

/-- No command writes anything of the host side, whether it succeeds or raises an error. -/
theorem exec_sameHostSide {i : Instr} {s t : State} (h : exec i s = .next t) : SameHostSide s t := by
  rw [exec_frame h]
  exact ⟨rfl, rfl, rfl, rfl, rfl, rfl, rfl, rfl, rfl⟩

/-- Settles O36: of the writes a command can make, those of a value register and of RESULT are other commands', an error
writes only the completion fields, and a text ends at the number of bytes stored. -/
theorem textCommandFrame : Obligations.TextCommandFrame := by
  intro rs1 i s t hi h
  have hdest : i.destination = none := by rcases hi with rfl | rfl <;> rfl
  have hres : i.writesResult = false := by rcases hi with rfl | rfl <;> rfl
  have hhost := exec_sameHostSide h
  rcases exec_next h with ⟨e, -, rfl⟩ | rfl | ⟨rd, x, hrd, -⟩ | ⟨hw, -⟩ | ⟨-, -, text, ht, hlen, -⟩
  · exact ⟨fun _ => rfl, rfl, hhost, fun _ _ => rfl⟩
  · exact ⟨fun _ => rfl, rfl, hhost, fun _ _ => rfl⟩
  · exact absurd (hdest.symm.trans hrd) (by simp)
  · exact absurd (hres.symm.trans hw) (by decide)
  · have habove : ∀ j, i.storedBytes s ≤ j → t.cbufByte j = s.cbufByte j :=
      fun j hj => commitText_cbufByte_of_le ht (hlen.trans_le hj)
    cases ht
    exact ⟨fun _ => rfl, rfl, hhost, habove⟩

end Sys2Proof.Machine

/-! PROOFS. The statement that opcode_table.json and the decoder agree (30_encoding.md R86): a row's mask keeps the bits
that its format fixes. -/

namespace Sys2Proof

/-- Every command matches its row of the opcode table. -/
theorem tableMatch (i : Instr) : Laws.TableMatch.Statement i := by
  cases i with
  | newcap => exact Laws.TableMatch.newcap _ _
  | ldu => exact Laws.TableMatch.ldu _
  | ldstr => exact Laws.TableMatch.ldstr _
  | copy => exact Laws.TableMatch.copy _ _
  | expand => exact Laws.TableMatch.expand _ _
  | trim => exact Laws.TableMatch.trim _
  | getb => exact Laws.TableMatch.getb _
  | setb => exact Laws.TableMatch.setb _ _
  | setall => exact Laws.TableMatch.setall _ _
  | size => exact Laws.TableMatch.size _
  | cmp => exact Laws.TableMatch.cmp _ _
  | cmpu => exact Laws.TableMatch.cmpu _
  | and => exact Laws.TableMatch.and _ _ _
  | or => exact Laws.TableMatch.or _ _ _
  | xor => exact Laws.TableMatch.xor _ _ _
  | not => exact Laws.TableMatch.not _ _
  | shl => exact Laws.TableMatch.shl _ _
  | shr => exact Laws.TableMatch.shr _ _
  | add => exact Laws.TableMatch.add _ _ _
  | sub => exact Laws.TableMatch.sub _ _ _
  | mul => exact Laws.TableMatch.mul _ _ _
  | div => exact Laws.TableMatch.div _ _ _
  | mod => exact Laws.TableMatch.mod _ _ _
  | tostr => exact Laws.TableMatch.tostr _
  | tobits => exact Laws.TableMatch.tobits _

theorem matchesTable_iff (c : Word64) : matchesTable c = true ↔ ∃ r ∈ opcodeTable, c &&& r.mask = r.pattern := by
  simp [matchesTable]

/-- A field that a mask keeps whole is the pattern's in every value that matches. -/
theorem bitField_of_and_eq {c m p : Word64} (h : c &&& m = p) {hi lo : Nat}
    (hm : bitField m hi lo = 2 ^ (hi - lo + 1) - 1) : bitField c hi lo = bitField p hi lo := by
  subst h
  simp only [bitField] at hm ⊢
  rw [BitVec.toNat_and, Nat.and_div_two_pow, Nat.and_mod_two_pow, hm, Nat.and_two_pow_sub_one_eq_mod, Nat.mod_mod]

/-- The bits a command of the format fixes: c[63:21], the opcode and the must-be-zero fields (30_encoding.md R82, R84). -/
def Format.mask : Format → Word64
  | .r3 => 0xFFFFFFFFFFF000FF#64
  | .r2 => 0xFFFFFFFFFFFF00FF#64
  | .rdf => 0xFFFFFFFFFFEFF0FF#64
  | .rd => 0xFFFFFFFFFFFFF0FF#64
  | .s2 => 0xFFFFFFFFFFF00FFF#64
  | .s1 => 0xFFFFFFFFFFFF0FFF#64

/-- A row's mask is that of its opcode's format, and its match value is the opcode alone. -/
theorem opcodeTable_format : ∀ r ∈ opcodeTable,
    (formatOf (bitField r.pattern 7 0)).map Format.mask = some r.mask ∧ r.pattern.toNat < 2 ^ 8 := by
  decide

/-- A value that is an opcode alone under the mask of a format has zeros in all other fields the format fixes. -/
theorem fields_of_and_mask {fm : Format} {c p : Word64} (h : c &&& fm.mask = p) (hp : p.toNat < 2 ^ 8) :
    bitField c 63 32 = 0 ∧ bitField c 31 21 = 0 ∧ bitField c 7 0 = bitField p 7 0 ∧
      fm.mustBeZero (regField c 8) (regField c 12) (regField c 16) (bitField c 20 20 == 1).toNat = true := by
  have hkept : ∀ hi lo, 8 ≤ lo → bitField fm.mask hi lo = 2 ^ (hi - lo + 1) - 1 → bitField c hi lo = 0 := by
    intro hi lo hlo hm
    rw [bitField_of_and_eq h hm, bitField,
      Nat.div_eq_of_lt (hp.trans_le (Nat.pow_le_pow_right (by decide) hlo)), Nat.zero_mod]
  have hrd : bitField fm.mask 11 8 = 15 → (regField c 8).val = 0 := hkept 11 8 (by decide)
  have hrs1 : bitField fm.mask 15 12 = 15 → (regField c 12).val = 0 := hkept 15 12 (by decide)
  have hrs2 : bitField fm.mask 19 16 = 15 → (regField c 16).val = 0 := hkept 19 16 (by decide)
  have hf : bitField fm.mask 20 20 = 1 → bitField c 20 20 = 0 := hkept 20 20 (by decide)
  refine ⟨hkept 63 32 (by decide) (by cases fm <;> rfl), hkept 31 21 (by decide) (by cases fm <;> rfl),
    bitField_of_and_eq h (by cases fm <;> rfl), ?_⟩
  cases fm with
  | r3 => simp [Format.mustBeZero, hf rfl]
  | r2 => simp [Format.mustBeZero, hrs2 rfl, hf rfl]
  | rdf => simp [Format.mustBeZero, hrs1 rfl, hrs2 rfl]
  | rd => simp [Format.mustBeZero, hrs1 rfl, hrs2 rfl, hf rfl]
  | s2 => simp [Format.mustBeZero, hrd rfl, hf rfl]
  | s1 => simp [Format.mustBeZero, hrd rfl, hrs2 rfl, hf rfl]

/-- Settles O4: a value that decodes is an encoding, which matches its row; one that matches a row is legal. -/
theorem decodeAcceptsTableMatches : Obligations.DecodeAcceptsTableMatches := by
  intro c
  rw [matchesTable_iff]
  constructor
  · rintro ⟨i, hi⟩
    obtain ⟨r, hr, -, hmatch⟩ := tableMatch i
    exact ⟨r, hr, by rwa [encodeOfDecode c i hi] at hmatch⟩
  · rintro ⟨r, hr, hmatch⟩
    obtain ⟨hformat, hp⟩ := opcodeTable_format r hr
    obtain ⟨fm, hfm, hmask⟩ := Option.map_eq_some_iff.1 hformat
    obtain ⟨hhigh, hreserved, hop, hzero⟩ := fields_of_and_mask (fm := fm) (by rw [hmask, hmatch]) hp
    exact (decodeAcceptsLegalCommands c).2 ((legalCommand_iff c).2 ⟨hhigh, hreserved, fm, by rw [hop, hfm], hzero⟩)

end Sys2Proof

/-! PROOFS. The statements about completion of 60_exceptions.md: what the engine's turn does, that an error writes only the
completion fields, that every decoded command completes, and the frames of the commands that write a register. -/

namespace Sys2Proof.Machine

/-! ### The engine's turn -/

/-- Settles O6. -/
theorem stepRunsDecodedCommand : Obligations.StepRunsDecodedCommand := fun _ _ h =>
  ⟨step_of_engineNext h, fun _ hb hi => (step_of_engineNext h).trans (engineTurn_of_decode hb hi)⟩

theorem engineTurn_of_idle {s : State} (hb : s.busy = false) : engineTurn s = .next s := by
  simp [engineTurn, hb]

/-- Settles O8. -/
theorem engineIdleKeepsState : Obligations.EngineIdleKeepsState := fun s es h hb =>
  (step_of_engineNext h).trans (engineTurn_of_idle (s := { s with arrivals := es }) hb)

/-! ### Errors -/

/-- Of the writes a command can make, only the completion fields come with an error (60_exceptions.md R203). -/
theorem exec_eq_failedWith {i : Instr} {s t : State} (h : exec i s = .next t) (he : t.err ≠ .none) :
    t = failedWith s t.err := by
  rcases exec_next h with ⟨e, -, rfl⟩ | rfl | ⟨rd, x, -, rfl, -⟩ | ⟨-, r, rfl⟩ | ⟨-, -, text, ht, -, -⟩
  · rfl
  · exact absurd rfl he
  · exact absurd rfl he
  · exact absurd rfl he
  · cases ht; exact absurd rfl he

/-- Settles O37: a decoded command by exec_eq_failedWith; an illegal one does nothing but fail. -/
theorem errorsAreAllOrNothing : Obligations.ErrorsAreAllOrNothing := by
  intro s t hb h he
  rcases engineTurn_next h with ⟨hb', -⟩ | ⟨-, i, -, hi⟩ | ⟨-, rfl⟩
  · exact absurd (hb.symm.trans hb') (by decide)
  · exact exec_eq_failedWith hi he
  · rfl

/-! ### Every command completes -/

/-- No command is refused: every arm of exec gives its command a meaning. -/
theorem exec_ne_refused (i : Instr) (s : State) (r : Refusal) : exec i s ≠ .refused r := by
  intro h
  cases i with
  | ldstr rd =>
    simp only [exec, execLdstr] at h
    split at h
    · cases h
    · split at h <;> cases h
  | newcap | expand | setb | shl | shr | add | sub | mul | div | mod | tostr =>
    simp only [exec, execNewcap, execExpand, execSetb, execShl, execShr, execAdd, execSub, execMul, execDiv, execMod,
      execTostr] at h
    repeat' split at h
    all_goals cases h
  | _ => cases h

/-- The index LDSTR faults with is that of an unwritten byte of the string (60_exceptions.md R216). -/
theorem parseBits_unwritten {m : Mem} {n j acc k : Nat} (h : parseBits m n j acc = .unwritten k) :
    k < j + n ∧ Mem.read m k = none := by
  induction n generalizing j acc with
  | zero => cases h
  | succ n ih =>
    have hrest : ∀ {acc'}, parseBits m n (j + 1) acc' = .unwritten k → k < j + (n + 1) ∧ Mem.read m k = none :=
      fun h => by rw [← Nat.add_assoc, Nat.add_right_comm]; exact ih h
    rw [parseBits] at h
    split at h
    · cases h; exact ⟨by omega, ‹_›⟩
    · split at h
      · exact hrest h
      · split at h
        · exact hrest h
        · cases h

/-- Settles O38, by the outcome: a completion by exec_frame, the one fault by exec_fault. -/
theorem everyCommandCompletes : Obligations.EveryCommandCompletes := by
  intro i s
  cases h : exec i s with
  | next t => exact .inl ⟨t, rfl, by rw [exec_frame h], by rw [exec_frame h]⟩
  | fault r =>
    obtain ⟨rd, j, rfl, rfl, hj⟩ := exec_fault h
    obtain ⟨hlt, hnone⟩ := parseBits_unwritten hj
    exact .inr ⟨rd, j, rfl, by rwa [Nat.zero_add] at hlt, hnone, rfl⟩
  | refused r => exact absurd h (exec_ne_refused i s r)

/-! ### Frames -/

/-- The commands that write RESULT name no destination (30_encoding.md R82). -/
theorem destination_of_writesResult {i : Instr} (h : i.writesResult = true) : i.destination = none := by
  cases i with
  | getb | size | cmp | cmpu => rfl
  | _ => cases h

/-- Settles O34: an error and a no-op write no register, and a value goes to the destination alone. -/
theorem valueCommandFrame : Obligations.ValueCommandFrame := by
  intro i rd s t hd h
  have hhost := exec_sameHostSide h
  rcases exec_next h with ⟨e, -, rfl⟩ | rfl | ⟨rd', x, hrd, rfl, -⟩ | ⟨hw, -⟩ | ⟨hnone, -⟩
  · exact ⟨fun _ _ => rfl, rfl, rfl, fun _ => rfl, hhost⟩
  · exact ⟨fun _ _ => rfl, rfl, rfl, fun _ => rfl, hhost⟩
  · cases hd.symm.trans hrd
    exact ⟨fun q hq => by rw [readV_valueWritten, if_neg hq], rfl, rfl, fun _ => rfl, hhost⟩
  · exact absurd (hd.symm.trans (destination_of_writesResult hw)) (by simp)
  · exact absurd (hd.symm.trans hnone) (by simp)

/-- Settles O35: a command that writes RESULT names no destination and stores no text. -/
theorem resultCommandFrame : Obligations.ResultCommandFrame := by
  intro i s t hw h
  have hhost := exec_sameHostSide h
  rcases exec_next h with ⟨e, -, rfl⟩ | rfl | ⟨rd, x, hrd, -⟩ | ⟨-, r, rfl⟩ | ⟨-, hno, -⟩
  · exact ⟨fun _ => rfl, rfl, fun _ => rfl, hhost⟩
  · exact ⟨fun _ => rfl, rfl, fun _ => rfl, hhost⟩
  · exact absurd (hrd.symm.trans (destination_of_writesResult hw)) (by simp)
  · exact ⟨fun _ => rfl, rfl, fun _ => rfl, hhost⟩
  · exact absurd (hw.symm.trans hno) (by decide)

end Sys2Proof.Machine

/-! PROOFS. The laws the spec derives of the commands: the shift round trip (44_shift.md R162), the laws of ADD and SUB
(45_addsub.md R172), the division laws (46_muldiv.md R184) and the bit-string round trip (47_conversion.md R192). -/

namespace Sys2Proof.Machine

/-! ### Shift round trip -/

/-- Shifting left and then right by the same count moves no bit of a value out. -/
theorem Value.shl_shr (x : Value) (k : Nat) : (⟨x.len + k - k, x.val * 2 ^ k / 2 ^ k⟩ : Value) = x := by
  rw [Nat.add_sub_cancel, Nat.mul_div_cancel _ (Nat.two_pow_pos k)]

/-- Settles O24: SHL makes a value longer than ARG just when its operand is not EMPTY, and then SHR takes ARG positions off
again; EMPTY has magnitude 0, as ZERO1 has. -/
theorem shiftRoundTrip : Obligations.ShiftRoundTrip := by
  intro rd rq rs1 s hv hfits
  obtain ⟨y, hshl, hylen, hyval⟩ := (shlMeaning rd rs1 s).1 hfits
  have hy := readV_valueWritten_same s rd y
  have harg : (valueWritten s rd y).arg = s.arg := rfl
  rcases Nat.eq_zero_or_pos (s.readV rs1).len with hlen | hlen
  · have hval : (s.readV rs1).val = 0 := by simpa [hlen] using hv
    have hout : ((valueWritten s rd y).readV rd).len ≤ (valueWritten s rd y).arg.toNat := by rw [hy, harg]; omega
    refine ⟨_, _, hshl, exec_shr_of_le hout rq, ?_⟩
    rw [readV_valueWritten_same, hval, if_neg (by omega)]
    exact ⟨rfl, rfl⟩
  · have hin : (valueWritten s rd y).arg.toNat < ((valueWritten s rd y).readV rd).len := by rw [hy, harg]; omega
    refine ⟨_, _, hshl, exec_shr_of_lt hin rq, ?_⟩
    rw [readV_valueWritten_same, hy, harg, hylen, hyval, Value.shl_shr, if_pos (Nat.succ_le_of_lt hlen)]
    exact ⟨rfl, rfl⟩

/-! ### ADD and SUB -/

/-- SUB writes a minimal value, and its magnitude is the truncated difference, clamped or not (45_addsub.md R171). -/
theorem exec_sub (rd rs1 rs2 : VReg) (s : State) : exec (.sub rd rs1 rs2) s =
    .next (valueWritten s rd (minimal ((s.readV rs1).val - (s.readV rs2).val))) := by
  rcases Nat.lt_or_ge (s.readV rs1).val (s.readV rs2).val with h | h
  · rw [exec_sub_of_lt h, Nat.sub_eq_zero_of_le h.le]; rfl
  · exact exec_sub_of_ge h rd

theorem readV_valueWritten_minimal (s : State) (rd : VReg) (n : Nat) :
    ((valueWritten s rd (minimal n)).readV rd).Minimal ∧ ((valueWritten s rd (minimal n)).readV rd).val = n := by
  rw [readV_valueWritten_same]
  exact ⟨minimal_Minimal n, rfl⟩

/-- Settles O27: each result is a minimal value whose magnitude is the sum or the truncated difference. -/
theorem addSubLaws : Obligations.AddSubLaws := by
  intro rd rq rs1 rs2 s hfits
  have hadd := exec_add_of_fits hfits rd
  obtain ⟨hmin, hsum⟩ := readV_valueWritten_minimal s rd ((s.readV rs1).val + (s.readV rs2).val)
  refine ⟨?_, ⟨_, hadd, hmin, hsum, fun hne => ?_⟩, ?_⟩
  · rw [hadd, exec_add_of_fits (by rwa [Nat.max_comm]), Nat.add_comm]
  · obtain ⟨hmin', hdiff⟩ := readV_valueWritten_minimal (valueWritten s rd _) rq _
    refine ⟨_, exec_sub rq rd rs2 _, hmin', ?_⟩
    rw [hdiff, hsum, readV_valueWritten, if_neg hne.symm, Nat.add_sub_cancel]
  · obtain ⟨hmin', hdiff⟩ := readV_valueWritten_minimal s rq ((s.readV rs1).val - (s.readV rs2).val)
    refine ⟨_, exec_sub rq rs1 rs2 s, hmin', ?_⟩
    rw [hdiff]
    omega

/-! ### DIV and MOD -/

/-- Settles O30: quotient and remainder are those of the natural numbers, which Nat.div_mod_unique fixes. -/
theorem divisionLaws : Obligations.DivisionLaws := by
  intro rq rr rs1 rs2 s h
  have hpos := Nat.pos_of_ne_zero h
  refine ⟨_, _, exec_div_of_nonzero h rq rs1, exec_mod_of_nonzero h rr rs1, ?_⟩
  rw [readV_valueWritten_same, readV_valueWritten_same]
  refine ⟨Nat.div_add_mod' _ _, Nat.mod_lt _ hpos, fun q r hsum hlt => ?_⟩
  have hsum' : r + (s.readV rs2).val * q = (s.readV rs1).val := by rw [← hsum, Nat.mul_comm, Nat.add_comm]
  obtain ⟨hq, hr⟩ := (Nat.div_mod_unique hpos).2 ⟨hsum', hlt⟩
  exact ⟨hq.symm, hr.symm⟩

/-! ### Bit-string round trip -/

/-- A string of n characters that are the bits of a magnitude v, most significant first, is read as v. -/
theorem parseCbuf_of_bits {s : State} {n v : Nat} (hv : v < 2 ^ n)
    (h : ∀ j, j < n → s.cbufByte j = some (if v.testBit (n - 1 - j) then 0x31#8 else 0x30#8)) :
    parseBits s.cbuf n 0 0 = .value v := by
  have hdigits : ∀ j, j < n → s.cbufByte j = some 0x30#8 ∨ s.cbufByte j = some 0x31#8 := fun j hj => by
    rw [h j hj]; split <;> simp
  obtain ⟨w, hw, hlt, hbits⟩ := parseCbuf_of_digits hdigits
  have hwv : w = v := Nat.eq_of_testBit_eq fun i => by
    rcases Nat.lt_or_ge i n with hi | hi
    · have hbit := hbits (n - 1 - i) (by omega)
      rw [h _ (by omega), show n - 1 - (n - 1 - i) = i by omega] at hbit
      rw [hbit]
      cases v.testBit i <;> rfl
    · have hpow := Nat.pow_le_pow_right (n := 2) (by decide) hi
      rw [Nat.testBit_lt_two_pow (hlt.trans_le hpow), Nat.testBit_lt_two_pow (hv.trans_le hpow)]
  rw [hw, hwv]

/-- Settles O33: TOBITS leaves the characters of the bits and their number in CLEN, which LDSTR reads back. -/
theorem bitStringRoundTrip : Obligations.BitStringRoundTrip := by
  intro rd rs1 s hp hx
  obtain ⟨⟨t, ht, -, hframe, hclen, hchars, -⟩, -⟩ := tobitsMeaning rs1 s hp hx
  obtain ⟨hval, hlen⟩ := hx
  have hparams : t.params = s.params := by rw [hframe]
  have hfits : t.clen.toNat ≤ t.params.maxBits := by rwa [hclen, hparams]
  have hparse : parseBits t.cbuf t.clen.toNat 0 0 = .value (s.readV rs1).val := by
    rw [hclen]; exact parseCbuf_of_bits hval hchars
  refine ⟨t, _, ht, exec_ldstr_of_value hfits rd hparse, rfl, ?_⟩
  rw [readV_valueWritten_same, hclen]

end Sys2Proof.Machine

/-! PROOFS. The statements about hazards and reset of 70_reset_and_hazards.md: reads of result registers and CBUF while
BUSY = 1, and the hardware reset. -/

namespace Sys2Proof.Machine

/-! ### Reads while BUSY = 1 -/

/-- s after a read answered with d, a free value: the answer and the count of values drawn, and nothing else
(70_reset_and_hazards.md R242; log entry 4). -/
def State.freeRead (s : State) (d : Word64) : State :=
  { s with draws := s.draws + 1, response := some ⟨false, some d⟩ }

/-- A free value is cut to the width of the access (log entry 13). -/
theorem State.answerFree_eq_freeRead (s : State) (w : Nat) :
    ∃ d : Word64, s.answerFree w = s.freeRead d ∧ d.toNat < 2 ^ (8 * w) := by
  refine ⟨_, rfl, ?_⟩
  rw [BitVec.toNat_ofNat]
  exact (Nat.mod_le _ _).trans_lt (Nat.mod_lt _ (Nat.two_pow_pos _))

theorem State.answerResult_of_busy {s : State} (hb : s.busy = true) (d : Word64) : s.answerResult d = s.answerFree 8 := by
  simp [State.answerResult, hb]

theorem readCbuf_of_busy {s : State} (hb : s.busy = true) (j width : Nat) :
    readCbuf j width s = .next (s.answerFree width) := by
  simp [readCbuf, hb]

/-- Settles O44: each of the three reads is answered with a free value. -/
theorem readsWhileBusy : Obligations.ReadsWhileBusy := by
  intro s es off w h hb hread
  obtain ⟨d, hfree, hlt⟩ := State.answerFree_eq_freeRead { s with arrivals := es } w
  refine ⟨d, ?_, hlt⟩
  have hstep : step s = .next (State.answerFree { s with arrivals := es } w) := by
    rcases hread with ⟨rfl, rfl⟩ | ⟨rfl, rfl⟩ | ⟨hw, halign, hlo, hhi⟩
    · exact step_of_registerRead h (State.answerResult_of_busy (s := { s with arrivals := es }) hb _)
    · exact step_of_registerRead h (State.answerResult_of_busy (s := { s with arrivals := es }) hb _)
    · have hok : accessOk s.params off w = true := (accessOk_iff _ _ _).2 ⟨hw, halign, by omega, fun _ => hhi⟩
      obtain ⟨j, rfl⟩ := Nat.exists_eq_add_of_le hlo
      rw [step_of_cbufRead h hok]
      exact readCbuf_of_busy (s := { s with arrivals := es }) hb j w
  rw [hstep, hfree]
  rfl

/-! ### The hardware reset -/

/-- While the reset input is asserted a write has no effect (70_reset_and_hazards.md R230; log entry 8). -/
theorem WriteEffect.eq_of_asserted {s u : State} {d : Word64} {off width : Nat} (h : WriteEffect s d off width u)
    (hr : s.resetIn = true) : u = s := by
  cases h with
  | ignored => rfl
  | issue hr' | lost hr' | arg hr' | status hr' | enable hr' | softReset hr' | clen hr' | cbuf _ _ hr' =>
    exact absurd (hr.symm.trans hr') (by decide)

/-- No event moves a BIE that its asserted input holds in reset, the input's release included: the input follows its line,
and an access is answered (70_reset_and_hazards.md R230). -/
theorem deliver_of_heldInReset {e : Event} {s t : State} (hr : s.resetIn = true) (hs : s = s.clear)
    (h : deliver e s = .next t) : t = { s with resetIn := t.resetIn, response := t.response } := by
  have hidle : s.busy = false := by rw [hs]; rfl
  cases e with
  | read off width =>
    have hdraws := hostRead_draws_of_idle hidle h
    rw [hostRead_next h] at hdraws ⊢
    rw [hdraws]
  | write off width d =>
    obtain ⟨u, b, hu, rfl⟩ := hostWrite_effect h
    rw [hu.eq_of_asserted hr]
    rfl
  | engine =>
    rcases engineTurn_next h with ⟨-, rfl⟩ | ⟨hb, -⟩ | ⟨hb, -⟩
    · rfl
    · exact absurd (hidle.symm.trans hb) (by decide)
    · exact absurd (hidle.symm.trans hb) (by decide)
  | resetLine b =>
    cases h
    rcases s.driveReset_cases b with ⟨-, hr', -⟩ | ⟨-, h⟩
    · exact absurd (hr.symm.trans hr') (by decide)
    · rw [h, ← hs]

/-- Settles O53: asserting the input clears the registers, and then deliver_of_heldInReset keeps them clear. -/
theorem hardwareReset : Obligations.HardwareReset := by
  refine fun s t es => ⟨fun h => step_of_arrives h, fun hr h => ?_⟩
  obtain ⟨e, es', -, h⟩ := step_takesNext h
  rw [State.held_of_asserted hr] at h
  have ht := deliver_of_heldInReset (s := { s.clear with arrivals := es' }) hr rfl h
  rw [ht]
  rfl

end Sys2Proof.Machine
